-- ==== Sys2Proof/Word.lean ====
section
/-! DEFINITION. The data types of the block: bytes, 32-bit words and byte arrays of fixed length
(spec rule R6). -/

namespace Sys2Proof

/-- A byte (R6). -/
abbrev Byte := BitVec 8

/-- A datum of the host port and the container of a field register (R5 `OPW`, R41). -/
abbrev Word := BitVec 32

/-- A byte array `A[0..n-1]` (R6). -/
abbrev Bytes (n : Nat) := Vector Byte n

/-- The byte array whose byte `i` is `f i`. -/
def Bytes.gen {n : Nat} (f : Fin n → Byte) : Bytes n := ⟨(List.ofFn f).toArray, by simp⟩

@[simp] theorem Bytes.getElem_gen {n : Nat} (f : Fin n → Byte) (i : Nat) (h : i < n) :
    (Bytes.gen f)[i] = f ⟨i, h⟩ := by
  simp [Bytes.gen]

/-- The byte array of zeros. -/
def Bytes.zero (n : Nat) : Bytes n := Bytes.gen fun _ => 0x00

@[simp] theorem Bytes.getElem_zero (n i : Nat) (h : i < n) : (Bytes.zero n)[i] = 0x00 := by
  simp [Bytes.zero]

end Sys2Proof
end

