-- ==== Sys2Proof/Syntax.lean ====
section
/-! DEFINITION. The fourteen commands of the block (spec rule R62), one constructor a row of
`spec/opcode_table.json`. -/

namespace Sys2Proof

/-- A command. `SCR` and `DSCR` carry the length operand `N`, an unsigned byte count (R61); every other
command finds its operands in fixed registers. -/
inductive Instr where
  /-- `VALID` (R151): range validation of the four fields. -/
  | valid
  /-- `SCR n` (R82): forward substitution of the first `n` bytes of `WB`. -/
  | scr (n : Nat)
  /-- `DSCR n` (R83): inverse substitution of the first `n` bytes of `WB`. -/
  | dscr (n : Nat)
  /-- `DIV` (R91): the diversified key into `DK`. -/
  | div
  /-- `PACK8` (R103): 8-byte field packing into `WB`. -/
  | pack8
  /-- `UNPK8` (R104): 8-byte field extraction from `WB`. -/
  | unpk8
  /-- `ENC8` (R105): packing, then forward substitution. -/
  | enc8
  /-- `DEC8` (R106): inverse substitution, then extraction. -/
  | dec8
  /-- `PACKM` (R125): the MES plaintext into `WB`. -/
  | packm
  /-- `UNPKM` (R126): check and extraction of an MES plaintext in `WB`. -/
  | unpkm
  /-- `ENCM` (R128): the MES plaintext encrypted into `WB`. -/
  | encm
  /-- `DECM` (R130): decryption of `WB`, check and extraction. -/
  | decm
  /-- `ENC` (R153): `ENC8` or `ENCM` as `UM` says. -/
  | enc
  /-- `DEC` (R154): `DEC8` or `DECM` as `UM` says. -/
  | dec
  deriving DecidableEq, Repr

end Sys2Proof
end

