-- ==== Sys2Proof/WellFormed.lean ====
section
/-! DEFINITION. Which terms of `Instr` are commands: the length operand fits the field `N` of the
command word (spec rules R60, R61). -/

namespace Sys2Proof

/-- The length operand `N` is a number of 8 bits, 0 to 255 (R60). A count above 16 is well formed: it
is a legal word whose operand is out of range (R65). -/
def lengthFits (n : Nat) : Bool := decide (n < 256)

/-- A term of `Instr` that some command word stands for. -/
def wellFormed : Instr → Bool
  | .scr n => lengthFits n
  | .dscr n => lengthFits n
  | .valid => true
  | .div => true
  | .pack8 => true
  | .unpk8 => true
  | .enc8 => true
  | .dec8 => true
  | .packm => true
  | .unpkm => true
  | .encm => true
  | .decm => true
  | .enc => true
  | .dec => true

end Sys2Proof
end

