-- ==== Sys2Proof/Decode.lean ====
section
/-! DEFINITION. Command words (spec file `30_encoding.md`): the fields of format `C`, the decoder of rule
R63, which is total and rejects by name, the match-and-mask table, and the encoder. -/

namespace Sys2Proof

/-! ## Format C (R60) -/

/-- `OPC`, bits 7:0. -/
def opcField (w : Word) : BitVec 8 := w.extractLsb' 0 8

/-- `N`, bits 15:8. -/
def lenField (w : Word) : BitVec 8 := w.extractLsb' 8 8

/-- `RSV`, bits 31:16. -/
def rsvField (w : Word) : BitVec 16 := w.extractLsb' 16 16

/-- The word `(N << 8) | OPC`, with `RSV` zero (R67, R82). -/
def formatC (opc n : BitVec 8) : Word := (n.setWidth 32 <<< 8) ||| opc.setWidth 32

/-! ## The decoder -/

/-- Why a word is no command (R64); each is reported as `ERR_ILLEGAL_CMD`. -/
inductive IllegalWord where
  /-- `RSV` is not zero. -/
  | reservedBits
  /-- `OPC` is not one of the fourteen values of R62. -/
  | unknownOpcode
  /-- `N` is not zero in a command that does not use it. -/
  | lengthNotAllowed
  deriving DecidableEq, Repr

/-- The opcode map of R62: the command an `OPC` value selects, given the length operand. -/
def commandOf (opc : BitVec 8) (n : Nat) : Option Instr :=
  match opc.toNat with
  | 0x01 => some .valid
  | 0x10 => some (.scr n)
  | 0x11 => some (.dscr n)
  | 0x20 => some .div
  | 0x30 => some .pack8
  | 0x31 => some .unpk8
  | 0x32 => some .enc8
  | 0x33 => some .dec8
  | 0x40 => some .packm
  | 0x41 => some .unpkm
  | 0x42 => some .encm
  | 0x43 => some .decm
  | 0x50 => some .enc
  | 0x51 => some .dec
  | _ => none

/-- `OPC` of a command that uses `N` (R62, R63). -/
def usesLength (opc : BitVec 8) : Bool := opc == 0x10 || opc == 0x11

/-- Decoding (R63): reserved bits, then the opcode, then a length where none is allowed. -/
def decode (w : Word) : Except IllegalWord Instr :=
  if rsvField w ≠ 0 then .error .reservedBits
  else match commandOf (opcField w) (lenField w).toNat with
    | none => .error .unknownOpcode
    | some i =>
      if !usesLength (opcField w) && lenField w != 0 then .error .lengthNotAllowed
      else .ok i

/-! ## The match-and-mask table (R63, `opcode_table.json`) -/

/-- One row of the opcode table. -/
structure OpcodeRow where
  mnemonic : String
  pattern  : Word
  mask     : Word
  deriving DecidableEq, Repr

/-- The fourteen rows of `opcode_table.json`, in its order. -/
def opcodeTable : List OpcodeRow :=
  [⟨"VALID", 0x00000001, 0xFFFFFFFF⟩, ⟨"SCR", 0x00000010, 0xFFFF00FF⟩,
   ⟨"DSCR", 0x00000011, 0xFFFF00FF⟩, ⟨"DIV", 0x00000020, 0xFFFFFFFF⟩,
   ⟨"PACK8", 0x00000030, 0xFFFFFFFF⟩, ⟨"UNPK8", 0x00000031, 0xFFFFFFFF⟩,
   ⟨"ENC8", 0x00000032, 0xFFFFFFFF⟩, ⟨"DEC8", 0x00000033, 0xFFFFFFFF⟩,
   ⟨"PACKM", 0x00000040, 0xFFFFFFFF⟩, ⟨"UNPKM", 0x00000041, 0xFFFFFFFF⟩,
   ⟨"ENCM", 0x00000042, 0xFFFFFFFF⟩, ⟨"DECM", 0x00000043, 0xFFFFFFFF⟩,
   ⟨"ENC", 0x00000050, 0xFFFFFFFF⟩, ⟨"DEC", 0x00000051, 0xFFFFFFFF⟩]

/-- A word is the command of a row when its masked bits are the row's pattern (R63). -/
def OpcodeRow.hits (r : OpcodeRow) (w : Word) : Bool := w &&& r.mask == r.pattern

/-- The mnemonic of a command, as the opcode table spells it (R62). -/
def mnemonicOf : Instr → String
  | .valid => "VALID"
  | .scr _ => "SCR"
  | .dscr _ => "DSCR"
  | .div => "DIV"
  | .pack8 => "PACK8"
  | .unpk8 => "UNPK8"
  | .enc8 => "ENC8"
  | .dec8 => "DEC8"
  | .packm => "PACKM"
  | .unpkm => "UNPKM"
  | .encm => "ENCM"
  | .decm => "DECM"
  | .enc => "ENC"
  | .dec => "DEC"

/-! ## The encoder -/

/-- `OPC` of a command (R62). -/
def opcodeOf : Instr → BitVec 8
  | .valid => 0x01
  | .scr _ => 0x10
  | .dscr _ => 0x11
  | .div => 0x20
  | .pack8 => 0x30
  | .unpk8 => 0x31
  | .enc8 => 0x32
  | .dec8 => 0x33
  | .packm => 0x40
  | .unpkm => 0x41
  | .encm => 0x42
  | .decm => 0x43
  | .enc => 0x50
  | .dec => 0x51

/-- `N` of a command: 0 where it is not used (R61). -/
def lengthOf : Instr → Nat
  | .scr n => n
  | .dscr n => n
  | .valid => 0
  | .div => 0
  | .pack8 => 0
  | .unpk8 => 0
  | .enc8 => 0
  | .dec8 => 0
  | .packm => 0
  | .unpkm => 0
  | .encm => 0
  | .decm => 0
  | .enc => 0
  | .dec => 0

/-- The command word of a well-formed command (R60, R67). -/
def encode (i : Instr) : Word := formatC (opcodeOf i) (BitVec.ofNat 8 (lengthOf i))

/-- The decoder on a word numbered as the opcode table numbers it: the low `nbits` bits of `w`, every
bit above them zero. A number that is no 32-bit word is no command (log entry 12). -/
def decodeTableWord (nbits w : Nat) : Option Instr :=
  let v := w % 2 ^ nbits
  if v < 2 ^ 32 then (decode (BitVec.ofNat 32 v)).toOption else none

end Sys2Proof
end

