-- ==== Sys2Proof/Config.lean ====
section
/-! DEFINITION. The implementation parameters of the block (spec rule R5): the constants the rules fix,
and the three open ones (the substitution table and the two AES functions), which are fields of an
opaque constant, so that nothing can be proved that depends on their contents. -/

namespace Sys2Proof.Config

/-- `SN_CAP`, the backing capacity of the serial number (R5, R14). -/
@[simp] abbrev snCap : Nat := 10

/-- `MES_SN_MAX`, the largest serial length on the MES path (R5, R124). -/
@[simp] abbrev mesSnMax : Nat := 4

/-- `DIV_MAX`, the largest serial length the function `Deversify` admits (R5, R90). -/
@[simp] abbrev divMax : Nat := 16

/-- `WB_LEN`, the size of the wire block buffer (R5, R17). -/
@[simp] abbrev wbLen : Nat := 16

/-- `MES_MARKER`, byte 0 of an MES plaintext (R5, R121). -/
@[simp] abbrev mesMarker : Byte := 0x01

/-- `MES_TRAILER`, bytes 14 and 15 of an MES plaintext, big-endian (R5, R121). -/
@[simp] abbrev mesTrailer : BitVec 16 := 0x0748

/-- `SN_FILL`, the value of the MES serial bytes beyond the serial length (R5, R122; log entry 8). -/
@[simp] abbrev snFill : Byte := 0x00

/-- What the AES port answers: a 16-byte block, or the token `KEYERR` of a key it rejects (R120). -/
inductive PortAnswer where
  | block (b : Bytes 16)
  | keyErr
  deriving DecidableEq, Repr, Inhabited

/-- The open parameters of R5. `sbox` is `SBOX_FWD`: any permutation of the byte values, with
`SBOX_INV` its inverse (R80). `aesEnc` and `aesDec` are the two functions of the AES port, of a key and
a block (R120): any two total functions. -/
structure Params where
  sbox   : Equiv.Perm Byte
  aesEnc : Bytes 16 → Bytes 16 → PortAnswer
  aesDec : Bytes 16 → Bytes 16 → PortAnswer
  deriving Inhabited

/-- The parameters of this chip: no body, so every theorem about it holds of every value of the
parameters (log entries 6 and 7). -/
opaque chip : Params

/-- `SBOX_FWD[v]` (R80). -/
def Params.fwd (P : Params) (v : Byte) : Byte := P.sbox v

/-- `SBOX_INV[v]` (R80). -/
def Params.inv (P : Params) (v : Byte) : Byte := P.sbox.symm v

/-- The named premise `AES_INVERSE` (R120): where neither call answers `KEYERR`, decryption under the
same key gives the plaintext back. -/
def Params.AesInverse (P : Params) : Prop :=
  ∀ k p c q, P.aesEnc k p = .block c → P.aesDec k c = .block q → q = p

end Sys2Proof.Config
end

