-- ==== Sys2Proof/Machine/State.lean ====
section
/-! DEFINITION. The state of the block (spec file `10_state.md`, rules R10 to R25, and the event output of
R175), the two sides of its host port (R41), and the reasons a step can stop. Plain data throughout. -/

namespace Sys2Proof.Machine

/-- The four field registers, as validation and its events name them (R11, R150). -/
inductive Field where
  | rc | fc | cn | il
  deriving DecidableEq, Repr

/-- The error kinds (R162). -/
inductive ErrorKind where
  /-- `ERR_RANGE`, code 1: a field register is out of range (`VALID`). -/
  | range
  /-- `ERR_SERIAL_LEN`, code 2: `SNLEN` above 4 on the MES path. -/
  | serialLen
  /-- `ERR_KEY_SETUP`, code 3: the AES port answered `KEYERR`. -/
  | keySetup
  /-- `ERR_MARKER`, code 4: byte 0 of the MES plaintext is not 0x01. -/
  | marker
  /-- `ERR_DIV_LEN`, code 5: `SNLEN` above 10 at `DIV`. -/
  | divLen
  /-- `ERR_ILLEGAL_CMD`, code 6: the word written to `CMD` is no legal command word. -/
  | illegalCmd
  /-- `ERR_OPERAND`, code 7: `N` above 16 in `SCR` or `DSCR`. -/
  | operand
  deriving DecidableEq, Repr

/-- An event of the status sink (R175). -/
inductive Event where
  /-- `E_OK`: a command completed. -/
  | ok
  /-- `E_FIELD(f)`: `VALID` found field `f` out of range. -/
  | field (f : Field)
  /-- `E_TRAILER(t)`: an MES decode completed with trailing constant `t`, not 0x0748. -/
  | trailer (t : BitVec 16)
  /-- `E_ERR(code)`: a command raised an error. -/
  | err (e : ErrorKind)
  deriving DecidableEq, Repr

/-- A request of the host port (R41): `we` true for a write; the `wdata` of a read has no meaning. -/
structure Request where
  we    : Bool
  addr  : BitVec 8
  wdata : Word
  deriving DecidableEq, Repr

/-- A response of the host port (R41). `rdata` is the datum of a read, and 0 in a refusal; the response to
an accepted write carries none, since no rule gives it one (log entry 2). -/
structure Response where
  rdata : Option Word
  err   : Bool
  deriving DecidableEq, Repr

/-- What the outside does to the block: a transaction of the host port, or the reset input (R41, R190). -/
inductive HostInput where
  | transaction (r : Request)
  | reset
  deriving DecidableEq, Repr

/-- The state of the block. `inputs` and `responses` are the model's own: the host's side of the port as
plain data (log entries 1 and 2). -/
structure State where
  /-- `RC`, region code (R11). -/
  rc : Word
  /-- `FC`, facility code (R11). -/
  fc : Word
  /-- `CN`, card number (R11). -/
  cn : Word
  /-- `IL`, issue level (R11). -/
  il : Word
  /-- `UM`, the MES flag (R13). -/
  um : BitVec 1
  /-- `SNLEN`, the length of the serial number, unclamped (R15). -/
  snlen : BitVec 8
  /-- `SN[0..9]`, the serial number (R14). -/
  sn : Bytes 10
  /-- `SK[0..15]`, the site key (R16). -/
  sk : Bytes 16
  /-- `WB[0..15]`, the wire block buffer (R17). -/
  wb : Bytes 16
  /-- `DK[0..15]`, the diversified key of the last successful `DIV` (R18). -/
  dk : Bytes 16
  /-- `STATUS`, the outcome of the last command (R19). -/
  status : Word
  /-- The event output, oldest first (R175). -/
  events : List Event
  /-- What the host has issued and the block has not taken yet, next one first (log entry 1). -/
  inputs : List HostInput
  /-- The responses given so far, oldest first (log entry 2). -/
  responses : List Response
  deriving DecidableEq, Repr

/-- A reason a step stops with a fault: there is none. Every command, transaction and reset of the spec has
an effect, errors included (R160, R193; log entry 14), so this type is empty. -/
inductive Fault where
  deriving DecidableEq, Repr

/-- A reason a step has no meaning. -/
inductive Refusal where
  /-- A command without a meaning yet, by its mnemonic: raised by the arms of `exec` alone, and by none of
  them now. Safe: nothing is claimed of such a command. -/
  | notModelled (mnemonic : String)
  deriving DecidableEq, Repr

/-- The state after reset (R25, R190): every register zero, the event output empty; and nothing issued or
answered at the port (log entry 5). -/
def State.reset : State where
  rc := 0
  fc := 0
  cn := 0
  il := 0
  um := 0
  snlen := 0
  sn := Bytes.zero 10
  sk := Bytes.zero 16
  wb := Bytes.zero 16
  dk := Bytes.zero 16
  status := 0
  events := []
  inputs := []
  responses := []

end Sys2Proof.Machine
end

