-- ==== Sys2Proof/Machine/Flags.lean ====
section
/-! DEFINITION. `STATUS`: its layout (spec rule R19), its flags (R20), the error codes (R162) and the range
judgement that sets the `VF` flags (R150). -/

namespace Sys2Proof.Machine

/-! ## Validation (R150) -/

/-- The set `vf` of violated fields. -/
structure Violations where
  rc : Bool
  fc : Bool
  cn : Bool
  il : Bool
  deriving DecidableEq, Repr

/-- No field is violated. -/
def Violations.none : Violations := ⟨false, false, false, false⟩

/-- `IsValid(region, facility, card, issue)` (R150): four unsigned comparisons, all made. -/
def isValid (region facility card issue : Word) : Violations where
  rc := decide (region > 0xF)
  fc := decide (facility > 0xFFFF)
  cn := decide (card > 0xFFFFFF)
  il := decide (issue > 0xF)

/-- `ok` of R150. -/
def Violations.ok (vf : Violations) : Bool := !(vf.rc || vf.fc || vf.cn || vf.il)

/-- One `E_FIELD` event a violated field, in the order `RC`, `FC`, `CN`, `IL` (R151, R175). -/
def Violations.events (vf : Violations) : List Event :=
  (if vf.rc then [.field .rc] else []) ++ (if vf.fc then [.field .fc] else []) ++
  (if vf.cn then [.field .cn] else []) ++ (if vf.il then [.field .il] else [])

/-! ## The status word (R19) -/

/-- The error codes (R162). -/
def ErrorKind.code : ErrorKind → BitVec 4
  | .range => 1
  | .serialLen => 2
  | .keySetup => 3
  | .marker => 4
  | .divLen => 5
  | .illegalCmd => 6
  | .operand => 7

/-- The word with the given `CODE`, `WARN` and `VF` bits, reserved bits zero (R19). -/
def statusWord (code : BitVec 4) (warn : Bool) (vf : Violations) : Word :=
  0#20 ++ BitVec.ofBool vf.il ++ BitVec.ofBool vf.cn ++ BitVec.ofBool vf.fc ++ BitVec.ofBool vf.rc ++
    0#3 ++ BitVec.ofBool warn ++ code

/-- `STATUS` of a command that completes without warning (R161). -/
def statusOk : Word := statusWord 0 false .none

/-- `STATUS` of an MES decode that completes with a foreign trailing constant (R161). -/
def statusWarn : Word := statusWord 0 true .none

/-- `STATUS` of a command that raises an error; `vf` is empty for every error but `ERR_RANGE` (R161). -/
def statusError (e : ErrorKind) (vf : Violations) : Word := statusWord e.code false vf

/-- `CODE`, bits 3:0. -/
def codeOf (status : Word) : BitVec 4 := status.extractLsb' 0 4

/-- `WARN`, bit 4. -/
def warnOf (status : Word) : Bool := status.getLsbD 4

/-- `VF_RC`, `VF_FC`, `VF_CN`, `VF_IL`, bits 8 to 11. -/
def violationsOf (status : Word) : Violations :=
  ⟨status.getLsbD 8, status.getLsbD 9, status.getLsbD 10, status.getLsbD 11⟩

/-- The reserved bits 7:5 and 31:12 are zero. -/
def reservedClear (status : Word) : Bool := status.extractLsb' 5 3 == 0 && status.extractLsb' 12 20 == 0

end Sys2Proof.Machine
end

