-- ==== Sys2Proof/Machine/Operands.lean ====
section
/-! DEFINITION. Where operands come from and go to: the register map of the host port (spec rules R42 to
R45), the serial number (R14, R15), and the write of decoded fields (R11, D29). -/

namespace Sys2Proof.Machine

/-! ## The registers and their addresses (R42) -/

/-- A register that holds a value: the map of R42 less `CMD`, which holds none (R22). -/
inductive Reg where
  | rc | fc | cn | il | um | snlen | status
  | sn (i : Fin 10)
  | sk (i : Fin 16)
  | wb (i : Fin 16)
  | dk (i : Fin 16)
  deriving DecidableEq, Repr

/-- What an address of the register space names. -/
inductive Target where
  | reg (r : Reg)
  | cmd
  | unmapped
  deriving DecidableEq, Repr

/-- The register map (R42). -/
def targetOf (addr : BitVec 8) : Target :=
  let a := addr.toNat
  if a = 0x00 then .reg .rc
  else if a = 0x01 then .reg .fc
  else if a = 0x02 then .reg .cn
  else if a = 0x03 then .reg .il
  else if a = 0x04 then .reg .um
  else if a = 0x05 then .reg .snlen
  else if a = 0x06 then .reg .status
  else if a = 0x07 then .cmd
  else if h : 0x10 ≤ a ∧ a ≤ 0x19 then .reg (.sn ⟨a - 0x10, by omega⟩)
  else if h : 0x20 ≤ a ∧ a ≤ 0x2F then .reg (.sk ⟨a - 0x20, by omega⟩)
  else if h : 0x30 ≤ a ∧ a ≤ 0x3F then .reg (.wb ⟨a - 0x30, by omega⟩)
  else if h : 0x40 ≤ a ∧ a ≤ 0x4F then .reg (.dk ⟨a - 0x40, by omega⟩)
  else .unmapped

/-- The value of a register, zero-extended to 32 bits (R43, R44). -/
def readReg (r : Reg) (s : State) : Word :=
  match r with
  | .rc => s.rc
  | .fc => s.fc
  | .cn => s.cn
  | .il => s.il
  | .um => s.um.setWidth 32
  | .snlen => s.snlen.setWidth 32
  | .status => s.status
  | .sn i => s.sn[i].setWidth 32
  | .sk i => s.sk[i].setWidth 32
  | .wb i => s.wb[i].setWidth 32
  | .dk i => s.dk[i].setWidth 32

/-- A host write of `v` to a register: its significant low bits are stored (R43, R45). The read-only
registers `STATUS` and `DK[i]` take no write (R42, R47). -/
def writeReg (r : Reg) (v : Word) (s : State) : Option State :=
  match r with
  | .rc => some { s with rc := v }
  | .fc => some { s with fc := v }
  | .cn => some { s with cn := v }
  | .il => some { s with il := v }
  | .um => some { s with um := v.setWidth 1 }
  | .snlen => some { s with snlen := v.setWidth 8 }
  | .status => none
  | .sn i => some { s with sn := s.sn.set i (v.setWidth 8) }
  | .sk i => some { s with sk := s.sk.set i (v.setWidth 8) }
  | .wb i => some { s with wb := s.wb.set i (v.setWidth 8) }
  | .dk _ => none

/-! ## Operands of commands -/

/-- The serial number: the first `SNLEN` bytes of `SN` (R15). A command that reads it has checked that
`SNLEN` is at most 10 before, so these are exactly the bytes `SN[0..SNLEN-1]`. -/
def serial (s : State) : List Byte := s.sn.toList.take s.snlen.toNat

/-- A serial number has at most as many bytes as the function `Deversify` admits (R14, R90). -/
theorem serial_length_le_divMax (s : State) : (serial s).length ≤ Config.divMax := by
  simp [serial]

/-- Decoded fields, in their declared widths (R5, R102, R123). -/
structure Fields where
  rc : BitVec 4
  fc : BitVec 16
  cn : BitVec 24
  il : BitVec 4
  deriving DecidableEq, Repr

/-- The four field registers replaced by decoded fields, zero-extended (R11, R104). -/
def loadFields (f : Fields) (s : State) : State :=
  { s with rc := f.rc.setWidth 32, fc := f.fc.setWidth 32, cn := f.cn.setWidth 32, il := f.il.setWidth 32 }

/-- `WB[0..7]` replaced, `WB[8..15]` kept (R103, R106). -/
def storeLow8 (b : Bytes 8) (s : State) : State :=
  { s with wb := .gen fun i => if h : i.val < 8 then b[i.val] else s.wb[i] }

/-- `WB[0..7]` (R104). -/
def low8 (s : State) : Bytes 8 := .gen fun i => s.wb[i.val]

/-- `WB` replaced (R125, R128). -/
def storeBlock (b : Bytes 16) (s : State) : State := { s with wb := b }

end Sys2Proof.Machine
end

