-- ==== Sys2Proof/Machine/Ops.lean ====
section
/-! DEFINITION. How a command ends (spec rules R160, R161, R175), the one operation that takes an error
(R165), and the reset input (R190). There is no return from an error and nothing to restore (R166). -/

namespace Sys2Proof.Machine

/-- Events appended to the event output (R175). -/
def emit (evs : List Event) (s : State) : State := { s with events := s.events ++ evs }

/-- A command completes without warning: `STATUS` is `OK`, and `E_OK` is its last event (R161, R175). -/
def complete (s : State) : State := emit [.ok] { s with status := statusOk }

/-- An MES decode completes with a trailing constant `t` other than 0x0748 (R126, R161). -/
def completeWarn (t : BitVec 16) (s : State) : State := emit [.trailer t, .ok] { s with status := statusWarn }

/-- A command raises an error (R160, R161, R165). `s` is the state BEFORE the command, so that none of its
register writes happens: only `STATUS` and the event output change. For `ERR_RANGE` the violated fields
stand in `vf`, and their events come first (R151). -/
def raiseWith (e : ErrorKind) (vf : Violations) (s : State) : State :=
  emit (vf.events ++ [.err e]) { s with status := statusError e vf }

/-- A command raises an error other than `ERR_RANGE`: every `VF` bit is 0 (R161). -/
def raise (e : ErrorKind) (s : State) : State := raiseWith e .none s

/-- A response at the host port (R41). -/
def respond (r : Response) (s : State) : State := { s with responses := s.responses ++ [r] }

/-- The reset input (R190 to R192): every register and the event output take their reset values; what the
host has still to issue, and what it has been answered, is not the block's (log entry 4). -/
def takeReset (s : State) : State := { State.reset with inputs := s.inputs, responses := s.responses }

end Sys2Proof.Machine
end

