-- ==== Sys2Proof/Machine/Substitution.lean ====
section
/-! DEFINITION. The byte substitution engine and the commands `SCR` and `DSCR` (spec file
`40_substitution.md`). -/

namespace Sys2Proof.Machine

/-- `Subst(T, A, n)` (R81): the first `n` bytes replaced by their table entries, each by itself. -/
def subst {m : Nat} (table : Byte → Byte) (a : Bytes m) (n : Nat) : Bytes m :=
  .gen fun i => if i.val < n then table a[i] else a[i]

/-- The commands `SCR n` and `DSCR n` over a table (R82, R83, R84). -/
def substituteWb (table : Byte → Byte) (n : Nat) (s : State) : State :=
  if n > Config.wbLen then raise .operand s
  else complete (storeBlock (subst table s.wb n) s)

/-- `SCR n` (R82). -/
def scr (P : Config.Params) (n : Nat) (s : State) : State := substituteWb P.fwd n s

/-- `DSCR n` (R83). -/
def dscr (P : Config.Params) (n : Nat) (s : State) : State := substituteWb P.inv n s

/-- `SCR n` on this chip. -/
def execScr (n : Nat) (s : State) : Host.Outcome State Fault Refusal := .next (scr Config.chip n s)

/-- `DSCR n` on this chip. -/
def execDscr (n : Nat) (s : State) : Host.Outcome State Fault Refusal := .next (dscr Config.chip n s)

end Sys2Proof.Machine
end

