-- ==== Sys2Proof/Machine/Codec8.lean ====
section
/-! DEFINITION. The low-capacity 8-byte codec and the commands `PACK8`, `UNPK8`, `ENC8`, `DEC8` (spec file
`42_codec8.md`). -/

namespace Sys2Proof.Machine

/-- `Pack8(rc, fc, cn, il)` by the authoritative formulas (R101). -/
def pack8 (rc fc cn il : Word) : Bytes 8 :=
  #v[((cn &&& 0xFFFFFF) >>> 16).setWidth 8,
     ((fc &&& 0xFFF) >>> 4).setWidth 8,
     ((cn &&& 0x7FF) >>> 3).setWidth 8,
     (((cn &&& 0x7) <<< 5) ||| ((rc &&& 0xF) <<< 1)).setWidth 8,
     ((cn &&& 0xFFFF) >>> 11).setWidth 8,
     ((fc &&& 0xFFFF) >>> 12).setWidth 8,
     0x00,
     (((fc &&& 0xF) <<< 4) ||| (il &&& 0xF)).setWidth 8]

/-- `Unpack8(b)` by the decode formulas (R102), computed on the bytes as numbers and then narrowed to the
declared widths, which loses nothing. -/
def unpack8 (b : Bytes 8) : Fields :=
  let z (v : Byte) : Word := v.setWidth 32
  { rc := ((z b[3] &&& 0x1E) >>> 1).setWidth 4
    fc := (((z b[5] &&& 0x0F) <<< 12) ||| (z b[1] <<< 4) ||| ((z b[7] >>> 4) &&& 0x0F)).setWidth 16
    cn := ((z b[0] <<< 16) ||| ((z b[4] &&& 0x1F) <<< 11) ||| (z b[2] <<< 3) |||
      ((z b[3] &&& 0xE0) >>> 5)).setWidth 24
    il := (z b[7] &&& 0x0F).setWidth 4 }

/-- `Pack8` of the field registers. -/
def packed8 (s : State) : Bytes 8 := pack8 s.rc s.fc s.cn s.il

/-- `PACK8` (R103). -/
def packLow (s : State) : State := complete (storeLow8 (packed8 s) s)

/-- `UNPK8` (R104). -/
def unpackLow (s : State) : State := complete (loadFields (unpack8 (low8 s)) s)

/-- `ENC8` (R105): all 8 bytes of the packing substituted. -/
def encodeLow (P : Config.Params) (s : State) : State :=
  complete (storeLow8 (subst P.fwd (packed8 s) 8) s)

/-- `DEC8` (R106): the inverse substitution first; the plaintext stays in `WB[0..7]`. -/
def decodeLow (P : Config.Params) (s : State) : State :=
  let b := subst P.inv (low8 s) 8
  complete (loadFields (unpack8 b) (storeLow8 b s))

/-- `PACK8` on this chip. -/
def execPack8 (s : State) : Host.Outcome State Fault Refusal := .next (packLow s)

/-- `UNPK8` on this chip. -/
def execUnpk8 (s : State) : Host.Outcome State Fault Refusal := .next (unpackLow s)

/-- `ENC8` on this chip. -/
def execEnc8 (s : State) : Host.Outcome State Fault Refusal := .next (encodeLow Config.chip s)

/-- `DEC8` on this chip. -/
def execDec8 (s : State) : Host.Outcome State Fault Refusal := .next (decodeLow Config.chip s)

end Sys2Proof.Machine
end

