-- ==== Sys2Proof/Machine/Diversify.lean ====
section
/-! DEFINITION. The key diversification XOR unit and the command `DIV` (spec file `41_deversify.md`). -/

namespace Sys2Proof.Machine

/-- `Deversify(sk, sn, len)` for the serial bytes `sn[0..len-1]` given as the list `sn` (R90). For more than
16 bytes the function has no value, so it asks for a proof that there are no more (U1; log entry 11). -/
def deversify (sk : Bytes 16) (sn : List Byte) (_defined : sn.length ≤ Config.divMax) : Bytes 16 :=
  .gen fun i => match sn[i.val]? with
    | some b => sk[i] ^^^ b
    | none => sk[i]

/-- `Deversify(SK, SN[0..SNLEN-1], SNLEN)`: the key of `DIV`, and the transient key of the MES commands
(R91, R94, R127). -/
def diversifiedKey (s : State) : Bytes 16 := deversify s.sk (serial s) (serial_length_le_divMax s)

/-- `DIV` (R91, R92). -/
def div (s : State) : State :=
  if s.snlen.toNat > Config.snCap then raise .divLen s
  else complete { s with dk := diversifiedKey s }

/-- `DIV` on this chip. -/
def execDiv (s : State) : Host.Outcome State Fault Refusal := .next (div s)

end Sys2Proof.Machine
end

