-- ==== Sys2Proof/Machine/CodecMes.lean ====
section
/-! DEFINITION. The MES 16-byte codec, the calls of the AES port, and the commands `PACKM`, `UNPKM`, `ENCM`,
`DECM` (spec file `43_codec_mes.md`). -/

namespace Sys2Proof.Machine

/-- The serial slot `p[10..13]`: the serial bytes in order, `SN_FILL` beyond them (R122). The commands that
use it have checked that there are at most 4 (R124). -/
def serialSlot (sn : List Byte) : Bytes 4 := .gen fun i => (sn[i.val]?).getD Config.snFill

/-- `PackMES(rc, fc, cn, il, sn, len)`, given the serial slot (R121, R122). -/
def packMes (rc fc cn il : Word) (slot : Bytes 4) : Bytes 16 :=
  #v[Config.mesMarker,
     ((cn >>> 16) &&& 0xFF).setWidth 8,
     ((cn >>> 8) &&& 0xFF).setWidth 8,
     (cn &&& 0xFF).setWidth 8,
     ((fc >>> 8) &&& 0xFF).setWidth 8,
     (fc &&& 0xFF).setWidth 8,
     (((rc &&& 0xF) <<< 4) ||| (il &&& 0xF)).setWidth 8,
     0x00, 0x00, 0x00,
     slot[0], slot[1], slot[2], slot[3],
     Config.mesTrailer.extractLsb' 8 8,
     Config.mesTrailer.extractLsb' 0 8]

/-- The fields of `UnpackMES(p)` (R123). -/
def unpackMes (p : Bytes 16) : Fields :=
  let z (v : Byte) : Word := v.setWidth 32
  { rc := ((z p[6] >>> 4) &&& 0xF).setWidth 4
    fc := ((z p[4] <<< 8) ||| z p[5]).setWidth 16
    cn := ((z p[1] <<< 16) ||| (z p[2] <<< 8) ||| z p[3]).setWidth 24
    il := (z p[6] &&& 0xF).setWidth 4 }

/-- The trailing constant as found, `t` of `UnpackMES(p)` (R123). -/
def trailerOf (p : Bytes 16) : BitVec 16 :=
  ((p[14].setWidth 32 <<< 8) ||| p[15].setWidth 32 : Word).setWidth 16

/-- The MES plaintext of the registers (R125, R128). -/
def mesPlaintext (s : State) : Bytes 16 := packMes s.rc s.fc s.cn s.il (serialSlot (serial s))

/-- The end of an MES decode of plaintext `p`: the marker, the extraction, then the trailing constant
(R126, R130, R163). -/
def finishMes (p : Bytes 16) (s : State) : State :=
  if p[0] ≠ Config.mesMarker then raise .marker s
  else if trailerOf p ≠ Config.mesTrailer then completeWarn (trailerOf p) (loadFields (unpackMes p) s)
  else complete (loadFields (unpackMes p) s)

/-- `PACKM` (R125). -/
def packMesCmd (s : State) : State :=
  if s.snlen.toNat > Config.mesSnMax then raise .serialLen s
  else complete (storeBlock (mesPlaintext s) s)

/-- `UNPKM` (R126). -/
def unpackMesCmd (s : State) : State := finishMes s.wb s

/-- `ENCM` (R128). -/
def encodeMes (P : Config.Params) (s : State) : State :=
  if s.snlen.toNat > Config.mesSnMax then raise .serialLen s
  else match P.aesEnc (diversifiedKey s) (mesPlaintext s) with
    | .keyErr => raise .keySetup s
    | .block c => complete (storeBlock c s)

/-- `DECM` (R130). -/
def decodeMes (P : Config.Params) (s : State) : State :=
  if s.snlen.toNat > Config.mesSnMax then raise .serialLen s
  else match P.aesDec (diversifiedKey s) s.wb with
    | .keyErr => raise .keySetup s
    | .block p => finishMes p s

/-- `PACKM` on this chip. -/
def execPackm (s : State) : Host.Outcome State Fault Refusal := .next (packMesCmd s)

/-- `UNPKM` on this chip. -/
def execUnpkm (s : State) : Host.Outcome State Fault Refusal := .next (unpackMesCmd s)

/-- `ENCM` on this chip. -/
def execEncm (s : State) : Host.Outcome State Fault Refusal := .next (encodeMes Config.chip s)

/-- `DECM` on this chip. -/
def execDecm (s : State) : Host.Outcome State Fault Refusal := .next (decodeMes Config.chip s)

end Sys2Proof.Machine
end

