-- ==== Sys2Proof/Machine/Validate.lean ====
section
/-! DEFINITION. Validation and dispatch on the MES flag: `VALID`, `ENC`, `DEC` (spec file
`44_validate_dispatch.md`). -/

namespace Sys2Proof.Machine

/-- `VALID` (R151). -/
def validate (s : State) : State :=
  let vf := isValid s.rc s.fc s.cn s.il
  if vf.ok then complete s else raiseWith .range vf s

/-- `ENC` (R153). -/
def encodeByFlag (P : Config.Params) (s : State) : State :=
  if s.um = 0 then encodeLow P s else encodeMes P s

/-- `DEC` (R154). -/
def decodeByFlag (P : Config.Params) (s : State) : State :=
  if s.um = 0 then decodeLow P s else decodeMes P s

/-- `VALID` on this chip. -/
def execValid (s : State) : Host.Outcome State Fault Refusal := .next (validate s)

/-- `ENC` on this chip. -/
def execEnc (s : State) : Host.Outcome State Fault Refusal := .next (encodeByFlag Config.chip s)

/-- `DEC` on this chip. -/
def execDec (s : State) : Host.Outcome State Fault Refusal := .next (decodeByFlag Config.chip s)

end Sys2Proof.Machine
end

