-- ==== Sys2Proof/Machine/Dispatch.lean ====
section
/-! DEFINITION. One arm for each command of `spec/opcode_table.json`, in its order. -/

namespace Sys2Proof.Machine

def exec (i : Instr) (s : State) : Host.Outcome State Fault Refusal :=
  match i with
  | .valid => Sys2Proof.Machine.execValid s
  | .scr n => Sys2Proof.Machine.execScr n s
  | .dscr n => Sys2Proof.Machine.execDscr n s
  | .div => Sys2Proof.Machine.execDiv s
  | .pack8 => Sys2Proof.Machine.execPack8 s
  | .unpk8 => Sys2Proof.Machine.execUnpk8 s
  | .enc8 => Sys2Proof.Machine.execEnc8 s
  | .dec8 => Sys2Proof.Machine.execDec8 s
  | .packm => Sys2Proof.Machine.execPackm s
  | .unpkm => Sys2Proof.Machine.execUnpkm s
  | .encm => Sys2Proof.Machine.execEncm s
  | .decm => Sys2Proof.Machine.execDecm s
  | .enc => Sys2Proof.Machine.execEnc s
  | .dec => Sys2Proof.Machine.execDec s

end Sys2Proof.Machine
end

