-- ==== Sys2Proof/Machine/HostPort.lean ====
section
/-! DEFINITION. Transactions of the host port (spec rules R41 to R47): reads, register writes, command
writes and refused transactions, each with its response. -/

namespace Sys2Proof.Machine

/-- The response to a read of value `v`. -/
def readDone (v : Word) : Response := ⟨some v, false⟩

/-- The response to an accepted write, a command write included (R45, R46). -/
def writeDone : Response := ⟨none, false⟩

/-- The response to a refused transaction, a read or a write (R47, D6, U10): `err` = 1 and `rdata` = 0. -/
def transactionRefused : Response := ⟨some 0, true⟩

/-- A response added to the state an outcome goes on with. -/
def answering (r : Response) : Host.Outcome State Fault Refusal → Host.Outcome State Fault Refusal
  | .next s => .next (respond r s)
  | .fault f => .fault f
  | .refused f => .refused f

/-- The command of a word written to `CMD`: an illegal word raises `ERR_ILLEGAL_CMD` (R46, R63, R64). -/
def runWord (w : Word) (s : State) : Host.Outcome State Fault Refusal :=
  match decode w with
  | .ok i => exec i s
  | .error _ => .next (raise .illegalCmd s)

/-- `MemRead(addr, 1)` (R44, R47). -/
def hostRead (addr : BitVec 8) (s : State) : Host.Outcome State Fault Refusal :=
  match targetOf addr with
  | .reg r => .next (respond (readDone (readReg r s)) s)
  | .cmd => .next (respond transactionRefused s)
  | .unmapped => .next (respond transactionRefused s)

/-- `MemWrite(addr, 1, v)` (R45, R46, R47). -/
def hostWrite (addr : BitVec 8) (v : Word) (s : State) : Host.Outcome State Fault Refusal :=
  match targetOf addr with
  | .reg r => match writeReg r v s with
    | some t => .next (respond writeDone t)
    | none => .next (respond transactionRefused s)
  | .cmd => answering writeDone (runWord v s)
  | .unmapped => .next (respond transactionRefused s)

/-- One input of the outside (R41, R190). -/
def takeInput (x : HostInput) (s : State) : Host.Outcome State Fault Refusal :=
  match x with
  | .transaction r => if r.we then hostWrite r.addr r.wdata s else hostRead r.addr s
  | .reset => .next (takeReset s)

/-- The address of `CMD` (R42). -/
def cmdAddress : BitVec 8 := 0x07

/-- The transaction that issues the command word `w` (R46, R67). -/
def commandWrite (w : Word) : HostInput := .transaction ⟨true, cmdAddress, w⟩

/-- The next input of the host, taken off the queue and performed. With none, the block waits, and its
state stays as it is (log entry 1). -/
def takeNext (s : State) : Host.Outcome State Fault Refusal :=
  match s.inputs with
  | [] => .next s
  | x :: rest => takeInput x { s with inputs := rest }

end Sys2Proof.Machine
end

