-- ==== Sys2Proof/Machine/Step.lean ====
section
/-! DEFINITION. One step: the block takes one transaction or reset and completes it (spec rules R41, R50). -/

namespace Sys2Proof.Machine

/-- One step of the block. -/
def step (s : State) : Host.Outcome State Fault Refusal := takeNext s

/-- `s` with the command word made of the low `nbits` bits of `w` as the next thing the host issues: a write
to `CMD` at the head of the queue. The commands of a program come from the host one by one (R12), so this
stands for the host issuing one (log entry 1). -/
def State.withFetchWord (s : State) (nbits w : Nat) : State :=
  { s with inputs := commandWrite (BitVec.ofNat 32 (w % 2 ^ nbits)) :: s.inputs }

end Sys2Proof.Machine
end

