-- ==== Sys2Proof/Config/Fips197.lean ====
section
/-! DEFINITION. The named premise `AES_FIPS197` (spec rule R120, G1): AES-128 on one block, from general
knowledge of FIPS-197 and not from the spec (PRESUMED, log entry 13). AES is no part of the block (R4) and no
command uses this file: only claims that take the premise, and the tests of the spec's ciphertexts, do. -/

namespace Sys2Proof.Config

/-- The S-box, one number a row of sixteen entries, first entry most significant. -/
def aesSboxRows : List Nat :=
  [0x637c777bf26b6fc53001672bfed7ab76, 0xca82c97dfa5947f0add4a2af9ca472c0,
   0xb7fd9326363ff7cc34a5e5f171d83115, 0x04c723c31896059a071280e2eb27b275,
   0x09832c1a1b6e5aa0523bd6b329e32f84, 0x53d100ed20fcb15b6acbbe394a4c58cf,
   0xd0efaafb434d338545f9027f503c9fa8, 0x51a3408f929d38f5bcb6da2110fff3d2,
   0xcd0c13ec5f974417c4a77e3d645d1973, 0x60814fdc222a908846eeb814de5e0bdb,
   0xe0323a0a4906245cc2d3ac629195e479, 0xe7c8376d8dd54ea96c56f4ea657aae08,
   0xba78252e1ca6b4c6e8dd741f4bbd8b8a, 0x703eb5664803f60e613557b986c11d9e,
   0xe1f8981169d98e949b1e87e9ce5528df, 0x8ca1890dbfe6426841992d0fb054bb16]

/-- The inverse S-box, laid out alike. -/
def aesInvSboxRows : List Nat :=
  [0x52096ad53036a538bf40a39e81f3d7fb, 0x7ce339829b2fff87348e4344c4dee9cb,
   0x547b9432a6c2233dee4c950b42fac34e, 0x082ea16628d924b2765ba2496d8bd125,
   0x72f8f66486689816d4a45ccc5d65b692, 0x6c704850fdedb9da5e154657a78d9d84,
   0x90d8ab008cbcd30af7e45805b8b34506, 0xd02c1e8fca3f0f02c1afbd0301138a6b,
   0x3a9111414f67dcea97f2cfcef0b4e673, 0x96ac7422e7ad3585e2f937e81c75df6e,
   0x47f11a711d29c5896fb7620eaa18be1b, 0xfc563e4bc6d279209adbc0fe78cd5af4,
   0x1fdda8338807c731b11210592780ec5f, 0x60517fa919b54a0d2de57a9f93c99cef,
   0xa0e03b4dae2af5b0c8ebbb3c83539961, 0x172b047eba77d626e169146355210c7d]

/-- Entry `v` of a table laid out in rows. -/
def tableEntry (rows : List Nat) (v : Byte) : Byte :=
  BitVec.ofNat 8 ((rows.getD (v.toNat / 16) 0) >>> (8 * (15 - v.toNat % 16)))

def aesSub (v : Byte) : Byte := tableEntry aesSboxRows v

def aesInvSub (v : Byte) : Byte := tableEntry aesInvSboxRows v

/-- Multiplication by x in GF(2^8). -/
def xtime (v : Byte) : Byte := if v.getLsbD 7 then (v <<< 1) ^^^ 0x1B else v <<< 1

/-- Multiplication by a constant of at most 4 bits in GF(2^8). -/
def gfMul (c : Byte) (v : Byte) : Byte :=
  (if c.getLsbD 0 then v else 0) ^^^ (if c.getLsbD 1 then xtime v else 0) ^^^
  (if c.getLsbD 2 then xtime (xtime v) else 0) ^^^ (if c.getLsbD 3 then xtime (xtime (xtime v)) else 0)

/-- Byte-wise exclusive-or of a block with a round key. -/
def addRoundKey (k b : Bytes 16) : Bytes 16 := .gen fun i => b[i] ^^^ k[i]

def subBytes (b : Bytes 16) : Bytes 16 := .gen fun i => aesSub b[i]

def invSubBytes (b : Bytes 16) : Bytes 16 := .gen fun i => aesInvSub b[i]

/-- Row `r` (bytes `r`, `r+4`, `r+8`, `r+12`) moved left by `r` columns. -/
def shiftRows (b : Bytes 16) : Bytes 16 :=
  .gen fun i => b[(i.val + 4 * (i.val % 4)) % 16]

def invShiftRows (b : Bytes 16) : Bytes 16 :=
  .gen fun i => b[(i.val + 12 * (i.val % 4)) % 16]

/-- Each column multiplied by the circulant matrix whose first row is `m0 m1 m2 m3`. -/
def mixWith (m0 m1 m2 m3 : Byte) (b : Bytes 16) : Bytes 16 :=
  .gen fun i =>
    let c := i.val / 4 * 4
    let r := i.val % 4
    gfMul m0 b[(c + r) % 16] ^^^ gfMul m1 b[(c + (r + 1) % 4) % 16] ^^^
    gfMul m2 b[(c + (r + 2) % 4) % 16] ^^^ gfMul m3 b[(c + (r + 3) % 4) % 16]

def mixColumns (b : Bytes 16) : Bytes 16 := mixWith 2 3 1 1 b

def invMixColumns (b : Bytes 16) : Bytes 16 := mixWith 14 11 13 9 b

/-- The round key after `k`. -/
def nextRoundKey (rcon : Byte) (k : Bytes 16) : Bytes 16 :=
  .gen fun i =>
    let r := i.val % 4
    let t := aesSub k[12 + (r + 1) % 4] ^^^ (if r = 0 then rcon else 0)
    t ^^^ k[r] ^^^ (if 4 ≤ i.val then k[4 + r] else 0) ^^^ (if 8 ≤ i.val then k[8 + r] else 0) ^^^
      (if 12 ≤ i.val then k[12 + r] else 0)

/-- The round keys after `k`, one for each round constant. -/
def roundKeys (k : Bytes 16) : List Byte → List (Bytes 16)
  | [] => []
  | c :: cs => nextRoundKey c k :: roundKeys (nextRoundKey c k) cs

/-- The round constants. -/
def rcons : List Byte := [0x01, 0x02, 0x04, 0x08, 0x10, 0x20, 0x40, 0x80, 0x1B, 0x36]

/-- The rounds of the cipher: all but the last mix columns. -/
def cipherRounds (b : Bytes 16) : List (Bytes 16) → Bytes 16
  | [] => b
  | [k] => addRoundKey k (shiftRows (subBytes b))
  | k :: ks => cipherRounds (addRoundKey k (mixColumns (shiftRows (subBytes b)))) ks

/-- AES-128 encryption of one block. -/
def aes128Enc (k b : Bytes 16) : Bytes 16 := cipherRounds (addRoundKey k b) (roundKeys k rcons)

/-- The rounds of the inverse cipher, over the round keys in order: the last key first. -/
def invCipherRounds (b : Bytes 16) : List (Bytes 16) → Bytes 16
  | [] => b
  | [k] => invSubBytes (invShiftRows (addRoundKey k b))
  | k :: ks => invSubBytes (invShiftRows (invMixColumns (addRoundKey k (invCipherRounds b ks))))

/-- AES-128 decryption of one block. -/
def aes128Dec (k b : Bytes 16) : Bytes 16 := addRoundKey k (invCipherRounds b (roundKeys k rcons))

/-- The named premise `AES_FIPS197` (R120): the port is AES-128 and never answers `KEYERR`. -/
def Params.AesFips197 (P : Params) : Prop :=
  ∀ k b, P.aesEnc k b = .block (aes128Enc k b) ∧ P.aesDec k b = .block (aes128Dec k b)

end Sys2Proof.Config
end

