-- ==== Sys2Proof/Machine/Command.lean ====
section
/-! DEFINITION. The commands over any value of the open parameters (spec rule R5: "taken by the model as an
argument"): what the claims that name a premise about the tables or the AES port speak of. `exec` is this at
the parameters of the chip (`exec_eq_command` in the laws). -/

namespace Sys2Proof.Machine

/-- The state after command `i` of a block with parameters `P`. -/
def command (P : Config.Params) (i : Instr) (s : State) : State :=
  match i with
  | .valid => validate s
  | .scr n => scr P n s
  | .dscr n => dscr P n s
  | .div => div s
  | .pack8 => packLow s
  | .unpk8 => unpackLow s
  | .enc8 => encodeLow P s
  | .dec8 => decodeLow P s
  | .packm => packMesCmd s
  | .unpkm => unpackMesCmd s
  | .encm => encodeMes P s
  | .decm => decodeMes P s
  | .enc => encodeByFlag P s
  | .dec => decodeByFlag P s

end Sys2Proof.Machine
end

