-- ==== Sys2Proof/Safety.lean ====
section
/-! DEFINITION. The terms claims are stated in: the legal status words (spec rule R32), the agreement of
`STATUS` with the event output (R161, R175), the registers two states share, and the access matrix (R31). -/

namespace Sys2Proof.Machine

/-! ## Invariants -/

/-- A status word some outcome of R161 leaves (R32): reserved bits zero, `CODE` at most 7, `WARN` only with
`CODE` 0 and no `VF` bit, `VF` bits exactly with `CODE` 1 and then no `WARN`. -/
abbrev StatusLegal (w : Word) : Prop :=
  reservedClear w = true ∧ (codeOf w).toNat ≤ 7 ∧
  (warnOf w = true → codeOf w = 0 ∧ violationsOf w = .none) ∧
  (violationsOf w ≠ .none ↔ codeOf w = 1)

/-- `STATUS` says what the last event says: with no event yet the reset value, after `E_OK` the code 0, after
`E_ERR` its code; and no other event is last (R161, R175). -/
abbrev StatusAgreesWithEvents (s : State) : Prop :=
  match s.events.getLast? with
  | none => s.status = 0
  | some .ok => codeOf s.status = 0
  | some (.err e) => codeOf s.status = e.code
  | some (.field _) => False
  | some (.trailer _) => False

/-! ## Equal registers -/

/-- Two states hold the same value in every register of R42, whatever their event outputs and ports hold. -/
abbrev SameRegisters (s t : State) : Prop :=
  s.rc = t.rc ∧ s.fc = t.fc ∧ s.cn = t.cn ∧ s.il = t.il ∧ s.um = t.um ∧ s.snlen = t.snlen ∧ s.sn = t.sn ∧
  s.sk = t.sk ∧ s.wb = t.wb ∧ s.dk = t.dk ∧ s.status = t.status

/-! ## The access matrix (R31) -/

/-- A register of the credential fields. -/
def Reg.isField : Reg → Bool
  | .rc | .fc | .cn | .il => true
  | .um | .snlen | .status | .sn _ | .sk _ | .wb _ | .dk _ => false

/-- A byte of `WB` below `n`. -/
def Reg.isWbBelow (n : Nat) : Reg → Bool
  | .wb i => decide (i.val < n)
  | .rc | .fc | .cn | .il | .um | .snlen | .status | .sn _ | .sk _ | .dk _ => false

/-- A byte of `DK`. -/
def Reg.isDk : Reg → Bool
  | .dk _ => true
  | .rc | .fc | .cn | .il | .um | .snlen | .status | .sn _ | .sk _ | .wb _ => false

/-- `SNLEN`, or a byte of the serial number of length `len` (R15). -/
def Reg.isSerial (len : BitVec 8) : Reg → Bool
  | .snlen => true
  | .sn i => decide (i.val < len.toNat)
  | .rc | .fc | .cn | .il | .um | .status | .sk _ | .wb _ | .dk _ => false

/-- A byte of `SK`. -/
def Reg.isSk : Reg → Bool
  | .sk _ => true
  | .rc | .fc | .cn | .il | .um | .snlen | .status | .sn _ | .wb _ | .dk _ => false

/-- The `w` entries of a command's row: the registers it writes on success, less `STATUS`, which every
command writes. `um` decides the rows of `ENC` and `DEC`. -/
def writesReg (um : BitVec 1) (i : Instr) (r : Reg) : Bool :=
  match i with
  | .valid => false
  | .scr n => r.isWbBelow n
  | .dscr n => r.isWbBelow n
  | .div => r.isDk
  | .pack8 => r.isWbBelow 8
  | .unpk8 => r.isField
  | .enc8 => r.isWbBelow 8
  | .dec8 => r.isField || r.isWbBelow 8
  | .packm => r.isWbBelow 16
  | .unpkm => r.isField
  | .encm => r.isWbBelow 16
  | .decm => r.isField
  | .enc => if um = 0 then r.isWbBelow 8 else r.isWbBelow 16
  | .dec => if um = 0 then r.isField || r.isWbBelow 8 else r.isField

/-- The `r` entries of a command's row: the registers it reads, given `UM` and `SNLEN`. -/
def readsReg (um : BitVec 1) (len : BitVec 8) (i : Instr) (r : Reg) : Bool :=
  match i with
  | .valid => r.isField
  | .scr n => r.isWbBelow n
  | .dscr n => r.isWbBelow n
  | .div => r.isSerial len || r.isSk
  | .pack8 => r.isField
  | .unpk8 => r.isWbBelow 6 || r == .wb 7
  | .enc8 => r.isField
  | .dec8 => r.isWbBelow 8
  | .packm => r.isField || r.isSerial len
  | .unpkm => r.isWbBelow 7 || r == .wb 14 || r == .wb 15
  | .encm => r.isField || r.isSerial len || r.isSk
  | .decm => r.isSerial len || r.isSk || r.isWbBelow 16
  | .enc => r == .um || if um = 0 then r.isField else r.isField || r.isSerial len || r.isSk
  | .dec => r == .um || if um = 0 then r.isWbBelow 8 else r.isSerial len || r.isSk || r.isWbBelow 16

/-! ## The layouts as relations

Written from the bit tables of the spec and not from the codec functions, so that a claim that a command meets
one says more than that the command calls the function. -/

/-- The bit table of the 8-byte plaintext (R100). -/
def Layout8 (rc fc cn il : Word) (b : Bytes 8) : Prop :=
  b[0] = cn.extractLsb' 16 8 ∧ b[1] = fc.extractLsb' 4 8 ∧ b[2] = cn.extractLsb' 3 8 ∧
  (∀ k < 3, b[3].getLsbD (5 + k) = cn.getLsbD k) ∧ (∀ k < 4, b[3].getLsbD (1 + k) = rc.getLsbD k) ∧
  b[3].getLsbD 0 = false ∧
  (∀ k < 5, b[4].getLsbD k = cn.getLsbD (11 + k)) ∧ (∀ k < 3, b[4].getLsbD (5 + k) = false) ∧
  (∀ k < 4, b[5].getLsbD k = fc.getLsbD (12 + k)) ∧ (∀ k < 4, b[5].getLsbD (4 + k) = false) ∧
  b[6] = 0x00 ∧
  (∀ k < 4, b[7].getLsbD (4 + k) = fc.getLsbD k) ∧ (∀ k < 4, b[7].getLsbD k = il.getLsbD k)

/-- The encode formulas of the 8-byte plaintext, on numbers (R101). -/
def Packs8 (rc fc cn il : Nat) (b : Bytes 8) : Prop :=
  b[0].toNat = (cn &&& 0xFFFFFF) >>> 16 ∧
  b[1].toNat = (fc &&& 0xFFF) >>> 4 ∧
  b[2].toNat = (cn &&& 0x7FF) >>> 3 ∧
  b[3].toNat = ((cn &&& 0x7) <<< 5) ||| ((rc &&& 0xF) <<< 1) ∧
  b[4].toNat = (cn &&& 0xFFFF) >>> 11 ∧
  b[5].toNat = (fc &&& 0xFFFF) >>> 12 ∧
  b[6].toNat = 0 ∧
  b[7].toNat = ((fc &&& 0xF) <<< 4) ||| (il &&& 0xF)

/-- The decode formulas of the 8-byte plaintext, on numbers (R102). -/
def Unpacks8 (b : Bytes 8) (rc fc cn il : Nat) : Prop :=
  rc = (b[3].toNat &&& 0x1E) >>> 1 ∧
  fc = ((b[5].toNat &&& 0x0F) <<< 12) ||| (b[1].toNat <<< 4) ||| ((b[7].toNat >>> 4) &&& 0x0F) ∧
  cn = (b[0].toNat <<< 16) ||| ((b[4].toNat &&& 0x1F) <<< 11) ||| (b[2].toNat <<< 3) |||
    ((b[3].toNat &&& 0xE0) >>> 5) ∧
  il = b[7].toNat &&& 0x0F

/-- The table of the MES plaintext of a state's fields and serial number (R121, R122). -/
def LayoutMes (s : State) (p : Bytes 16) : Prop :=
  p[0] = 0x01 ∧
  p[1] = s.cn.extractLsb' 16 8 ∧ p[2] = s.cn.extractLsb' 8 8 ∧ p[3] = s.cn.extractLsb' 0 8 ∧
  p[4] = s.fc.extractLsb' 8 8 ∧ p[5] = s.fc.extractLsb' 0 8 ∧
  (∀ k < 4, p[6].getLsbD (4 + k) = s.rc.getLsbD k) ∧ (∀ k < 4, p[6].getLsbD k = s.il.getLsbD k) ∧
  p[7] = 0x00 ∧ p[8] = 0x00 ∧ p[9] = 0x00 ∧
  (∀ (i : Nat) (_ : i < 4), p[10 + i] = if i < s.snlen.toNat then s.sn[i] else 0x00) ∧
  p[14] = 0x07 ∧ p[15] = 0x48

/-- The field registers hold what an MES plaintext carries, zero-extended (R121, R123, R126). -/
def CarriesMes (p : Bytes 16) (rc fc cn il : Word) : Prop :=
  (∀ k, rc.getLsbD k = if k < 4 then p[6].getLsbD (4 + k) else false) ∧
  (∀ k, fc.getLsbD k = if k < 8 then p[5].getLsbD k else if k < 16 then p[4].getLsbD (k - 8) else false) ∧
  (∀ k, cn.getLsbD k = if k < 8 then p[3].getLsbD k else if k < 16 then p[2].getLsbD (k - 8)
    else if k < 24 then p[1].getLsbD (k - 16) else false) ∧
  (∀ k, il.getLsbD k = if k < 4 then p[6].getLsbD k else false)

/-- The trailing constant found in an MES plaintext, big-endian (R123). -/
def TrailerFound (p : Bytes 16) (t : BitVec 16) : Prop := t.extractLsb' 8 8 = p[14] ∧ t.extractLsb' 0 8 = p[15]

/-- The site key diversified with the serial number of a state (R90, R91), for `SNLEN` at most 10. -/
def DiversifiedKey (s : State) (k : Bytes 16) : Prop :=
  ∀ (i : Nat) (_ : i < 16), k[i] = if h : i < s.snlen.toNat ∧ i < 10 then s.sk[i] ^^^ s.sn[i] else s.sk[i]

/-- All four fields are in their declared ranges (R11, R150). -/
abbrev InRange (s : State) : Prop :=
  s.rc.toNat ≤ 15 ∧ s.fc.toNat ≤ 65535 ∧ s.cn.toNat ≤ 16777215 ∧ s.il.toNat ≤ 15

end Sys2Proof.Machine
end

