-- ==== Sys2Proof/Certificates/Slice0/Obligations.lean ====
section
/-! DEFINITION. The statements for the provers, each from the rules its docstring names. -/

open Sys2Proof Sys2Proof.Machine

/-! ## Encoding -/

/-- Decoding the word of a well-formed command gives the command back, with every length operand 0 to 255
(R60 to R63). -/
def Obligations.DecodeOfEncodedCommandIsTheCommand : Prop :=
  ∀ i : Instr, wellFormed i = true → decode (encode i) = .ok i

/-- A word that decodes is the word of the one command it decodes to, which is well formed (R60 to R64). -/
def Obligations.EncodeOfDecodedCommandIsTheWord : Prop :=
  ∀ (w : Word) (i : Instr), decode w = .ok i → wellFormed i = true ∧ encode i = w

/-- R63: the decoder is the match-and-mask table. A word is a command exactly when a row matches it; the row
has the command's mnemonic; at most one row matches; and the operand of the command is the `N` of the word. -/
def Obligations.DecoderAgreesWithTheMatchAndMaskTable : Prop :=
  ∀ w : Word,
    ((∃ i, decode w = .ok i) ↔ ∃ r ∈ opcodeTable, w &&& r.mask = r.pattern) ∧
    (∀ i, decode w = .ok i → lengthOf i = (w.extractLsb' 8 8).toNat ∧
      ∃ r ∈ opcodeTable, w &&& r.mask = r.pattern ∧ r.mnemonic = mnemonicOf i) ∧
    (∀ r ∈ opcodeTable, ∀ r' ∈ opcodeTable, w &&& r.mask = r.pattern → w &&& r'.mask = r'.pattern → r = r')

/-- R64: which words are illegal, and that one written to `CMD` sets `STATUS` to 6, emits `E_ERR(6)` and
changes no other register. -/
def Obligations.IllegalWordsAreTheListedOnesAndPerformNothing : Prop :=
  (∀ w : Word, (∃ e, decode w = .error e) ↔
    w.extractLsb' 16 16 ≠ 0 ∨
    w.extractLsb' 0 8 ∉ [0x01#8, 0x10, 0x11, 0x20, 0x30, 0x31, 0x32, 0x33, 0x40, 0x41, 0x42, 0x43, 0x50, 0x51] ∨
    (w.extractLsb' 0 8 ≠ 0x10#8 ∧ w.extractLsb' 0 8 ≠ 0x11#8 ∧ w.extractLsb' 8 8 ≠ 0)) ∧
  ∀ (s : State) (w : Word) (e : IllegalWord) (rest : List HostInput),
    s.inputs = .transaction ⟨true, 0x07, w⟩ :: rest → decode w = .error e →
    step s = .next { s with
      inputs := rest, status := 6, events := s.events ++ [.err .illegalCmd],
      responses := s.responses ++ [⟨none, false⟩] }

/-- The fourteen words of the opcode table, with `N` 8 and 255 where it is used (R62, `opcode_table.json`). -/
def Obligations.SampleWordsDecodeAsTheTableSays : Prop :=
  decode 0x00000001 = .ok .valid ∧ decode 0x00000810 = .ok (.scr 8) ∧ decode 0x0000FF11 = .ok (.dscr 255) ∧
  decode 0x00000020 = .ok .div ∧ decode 0x00000030 = .ok .pack8 ∧ decode 0x00000031 = .ok .unpk8 ∧
  decode 0x00000032 = .ok .enc8 ∧ decode 0x00000033 = .ok .dec8 ∧ decode 0x00000040 = .ok .packm ∧
  decode 0x00000041 = .ok .unpkm ∧ decode 0x00000042 = .ok .encm ∧ decode 0x00000043 = .ok .decm ∧
  decode 0x00000050 = .ok .enc ∧ decode 0x00000051 = .ok .dec

/-! ## The host port and the step -/

/-- R46: a step whose next input is a write of `w` to `CMD` runs the command `w` decodes to on the state with
that input taken, or reports the illegal word in `STATUS`, and then answers without error. -/
def Obligations.StepAtCommandWriteRunsTheDecodedCommand : Prop :=
  ∀ (s : State) (w : Word) (rest : List HostInput), s.inputs = .transaction ⟨true, 0x07, w⟩ :: rest →
    (∀ i, decode w = .ok i → ∃ t, exec i { s with inputs := rest } = .next t ∧
      step s = .next { t with responses := t.responses ++ [⟨none, false⟩] }) ∧
    (∀ e, decode w = .error e → ∃ t, step s = .next t ∧ (codeOf t.status).toNat = 6 ∧
      t.responses = s.responses ++ [⟨none, false⟩])

/-- R44 with the map of R42: a read of a mapped readable register answers its value zero-extended and changes no
register; a read of any other address is refused. -/
def Obligations.ReadAnswersTheRegisterAndChangesNothing : Prop :=
  ∀ (s : State) (a : BitVec 8) (d : Word) (rest : List HostInput),
    s.inputs = .transaction ⟨false, a, d⟩ :: rest →
    let answers (v : Word) : Prop :=
      step s = .next { s with inputs := rest, responses := s.responses ++ [⟨some v, false⟩] }
    (a = 0x00 → answers s.rc) ∧ (a = 0x01 → answers s.fc) ∧ (a = 0x02 → answers s.cn) ∧
    (a = 0x03 → answers s.il) ∧ (a = 0x04 → answers (s.um.setWidth 32)) ∧
    (a = 0x05 → answers (s.snlen.setWidth 32)) ∧ (a = 0x06 → answers s.status) ∧
    (∀ (i : Nat) (_ : i < 10), a.toNat = 0x10 + i → answers (s.sn[i].setWidth 32)) ∧
    (∀ (i : Nat) (_ : i < 16), a.toNat = 0x20 + i → answers (s.sk[i].setWidth 32)) ∧
    (∀ (i : Nat) (_ : i < 16), a.toNat = 0x30 + i → answers (s.wb[i].setWidth 32)) ∧
    (∀ (i : Nat) (_ : i < 16), a.toNat = 0x40 + i → answers (s.dk[i].setWidth 32)) ∧
    ((0x07 ≤ a.toNat ∧ a.toNat ≤ 0x0F) ∨ (0x1A ≤ a.toNat ∧ a.toNat ≤ 0x1F) ∨ 0x50 ≤ a.toNat →
      step s = .next { s with inputs := rest, responses := s.responses ++ [⟨some 0, true⟩] })

/-- A write to an RW register stores the significant low bits there and changes no other register, not `STATUS`
and not the event output (R43, R45). -/
def Obligations.WriteStoresTheLowBitsInOneRegister : Prop :=
  ∀ (s : State) (a : BitVec 8) (v : Word) (rest : List HostInput),
    s.inputs = .transaction ⟨true, a, v⟩ :: rest →
    let u : State := { s with inputs := rest, responses := s.responses ++ [⟨none, false⟩] }
    (a = 0x00 → step s = .next { u with rc := v }) ∧ (a = 0x01 → step s = .next { u with fc := v }) ∧
    (a = 0x02 → step s = .next { u with cn := v }) ∧ (a = 0x03 → step s = .next { u with il := v }) ∧
    (a = 0x04 → step s = .next { u with um := v.extractLsb' 0 1 }) ∧
    (a = 0x05 → step s = .next { u with snlen := v.extractLsb' 0 8 }) ∧
    (∀ (i : Nat) (_ : i < 10), a.toNat = 0x10 + i → ∃ sn', step s = .next { u with sn := sn' } ∧
      ∀ (j : Nat) (_ : j < 10), sn'[j] = if j = i then v.extractLsb' 0 8 else s.sn[j]) ∧
    (∀ (i : Nat) (_ : i < 16), a.toNat = 0x20 + i → ∃ sk', step s = .next { u with sk := sk' } ∧
      ∀ (j : Nat) (_ : j < 16), sk'[j] = if j = i then v.extractLsb' 0 8 else s.sk[j]) ∧
    (∀ (i : Nat) (_ : i < 16), a.toNat = 0x30 + i → ∃ wb', step s = .next { u with wb := wb' } ∧
      ∀ (j : Nat) (_ : j < 16), wb'[j] = if j = i then v.extractLsb' 0 8 else s.wb[j])

/-- R47: which transactions are refused, and that one answers `err` = 1 and changes no state, not `STATUS` and not
the event output. `rdata` is 0, on a refused write too (D6 of `92_eei_decisions.md`). -/
def Obligations.RefusedTransactionsChangeNothing : Prop :=
  ∀ (s : State) (we : Bool) (a : BitVec 8) (v : Word) (rest : List HostInput),
    s.inputs = .transaction ⟨we, a, v⟩ :: rest →
    ((0x08 ≤ a.toNat ∧ a.toNat ≤ 0x0F) ∨ (0x1A ≤ a.toNat ∧ a.toNat ≤ 0x1F) ∨ 0x50 ≤ a.toNat ∨
      (we = false ∧ a = 0x07) ∨ (we = true ∧ a = 0x06) ∨ (we = true ∧ 0x40 ≤ a.toNat ∧ a.toNat ≤ 0x4F)) →
    step s = .next { s with inputs := rest, responses := s.responses ++ [⟨some 0, true⟩] }

/-- R43: a write to an RW register and then a read of it answers the significant low bits, zero-extended. -/
def Obligations.ReadAfterWriteAnswersTheLowBits : Prop :=
  ∀ (s : State) (a : BitVec 8) (v d : Word) (rest : List HostInput),
    s.inputs = .transaction ⟨true, a, v⟩ :: .transaction ⟨false, a, d⟩ :: rest →
    let answers (x : Word) : Prop := ∃ t u, step s = .next t ∧ step t = .next u ∧
      u.responses = s.responses ++ [⟨none, false⟩, ⟨some x, false⟩]
    (a.toNat ≤ 0x03 → answers v) ∧ (a = 0x04 → answers (v &&& 1)) ∧
    (a = 0x05 ∨ (0x10 ≤ a.toNat ∧ a.toNat ≤ 0x19) ∨ (0x20 ≤ a.toNat ∧ a.toNat ≤ 0x3F) → answers (v &&& 0xFF))

/-- Every input is taken in one step, and each transaction is answered once (R41, R50). What the host has
still to issue stays as it is, and a reset answers nothing: the model's choice (log entries 1, 2 and 4). -/
def Obligations.EachInputIsTakenOnceAndEachTransactionAnsweredOnce : Prop :=
  ∀ (s : State) (x : HostInput) (rest : List HostInput), s.inputs = x :: rest →
    ∃ t, step s = .next t ∧ t.inputs = rest ∧
      (x = .reset → t.responses = s.responses) ∧
      (x ≠ .reset → ∃ r, t.responses = s.responses ++ [r])

/-- With nothing issued the block waits, and its state stays as it is: the model's choice (log entry 1). -/
def Obligations.BlockWaitsWhenTheHostIssuesNothing : Prop :=
  ∀ s : State, s.inputs = [] → step s = .next s

/-! ## Reset -/

/-- R25: every register holds its reset value and the event output is empty after reset. -/
def Obligations.ResetStateHoldsTheResetValues : Prop :=
  let s := State.reset
  s.rc = 0 ∧ s.fc = 0 ∧ s.cn = 0 ∧ s.il = 0 ∧ s.um = 0 ∧ s.snlen = 0 ∧ s.status = 0 ∧ s.events = [] ∧
  (∀ (i : Nat) (_ : i < 10), s.sn[i] = 0x00) ∧
  ∀ (i : Nat) (_ : i < 16), s.sk[i] = 0x00 ∧ s.wb[i] = 0x00 ∧ s.dk[i] = 0x00

/-- R190: a step that takes the reset input puts every register to its reset value, whatever it held, and the
event output is empty. -/
def Obligations.ResetInputPutsEveryRegisterToItsResetValue : Prop :=
  ∀ (s : State) (rest : List HostInput), s.inputs = .reset :: rest →
    ∃ t, step s = .next t ∧ SameRegisters t State.reset ∧ t.events = []

/-! ## The error model and STATUS -/

/-- R160: a command is defined in every state; one that ends with a code other than `OK` changes `STATUS` and
the event output and nothing else; and one event `E_OK` or `E_ERR` ends every command. -/
def Obligations.ErrorsChangeStatusAndEventsOnly : Prop :=
  ∀ (i : Instr) (s : State), ∃ t evs, exec i s = .next t ∧ t.events = s.events ++ evs ∧
    (codeOf t.status = 0 → ∃ es, evs = es ++ [.ok] ∧ ∀ e ∈ es, ∃ x, e = .trailer x) ∧
    (codeOf t.status ≠ 0 → t = { s with status := t.status, events := t.events } ∧
      ∃ es e, evs = es ++ [.err e] ∧ codeOf t.status = e.code ∧ ∀ x ∈ es, ∃ f, x = .field f)

/-- R161: what every command writes to the whole of `STATUS`: 0; or `WARN` alone, of an MES decode; or code 1
with at least one `VF` bit, each exactly for its field, of `VALID`; or a code 2 to 7 alone. -/
def Obligations.StatusAfterACommandIsARowOfTheOutcomeTable : Prop :=
  ∀ (i : Instr) (s : State), ∃ t, exec i s = .next t ∧
    (t.status = 0 ∨
     (t.status = 0x10 ∧ (i = .unpkm ∨ i = .decm ∨ (i = .dec ∧ s.um = 1))) ∨
     (i = .valid ∧ ¬ InRange s ∧ t.status = 1 ||| (if s.rc.toNat > 15 then 0x100 else 0) |||
       (if s.fc.toNat > 65535 then 0x200 else 0) ||| (if s.cn.toNat > 16777215 then 0x400 else 0) |||
       (if s.il.toNat > 15 then 0x800 else 0)) ∨
     (i ≠ .valid ∧ 2 ≤ t.status.toNat ∧ t.status.toNat ≤ 7))

/-- R32: every step keeps the status word legal: reserved bits zero, `CODE` at most 7, `WARN` and `VF` only as
R19 and R161 allow. -/
def Obligations.EveryStepKeepsStatusLegal : Prop :=
  ∀ s t : State, StatusLegal s.status → step s = .next t → StatusLegal t.status

/-- The status word after reset is legal (R25, R32). -/
def Obligations.StatusIsLegalAfterReset : Prop := StatusLegal State.reset.status

/-- Every step keeps `STATUS` in agreement with the last event of the event output (R161, R175). -/
def Obligations.EveryStepKeepsStatusInAgreementWithEvents : Prop :=
  ∀ s t : State, StatusAgreesWithEvents s → step s = .next t → StatusAgreesWithEvents t

/-- `STATUS` agrees with the event output after reset (R25). -/
def Obligations.StatusAgreesWithEventsAfterReset : Prop := StatusAgreesWithEvents State.reset

/-- No command reads `STATUS` or its flags: every command ends alike whatever `STATUS` held before it (R19, R20,
R166, R199). -/
def Obligations.NoCommandReadsStatus : Prop :=
  ∀ (i : Instr) (s : State) (w : Word), exec i { s with status := w } = exec i s

/-! ## The access matrix and the rules about the whole machine -/

/-- The `w` entries of R31: a command changes no register outside its row but `STATUS`. -/
def Obligations.CommandsWriteTheirRowOfTheAccessMatrixOnly : Prop :=
  ∀ (i : Instr) (s : State), ∃ t, exec i s = .next t ∧
    ∀ r : Reg, r ≠ .status → writesReg s.um i r = false → readReg r t = readReg r s

/-- The `r` entries of R31: two states that agree on the registers a command reads give it the same outcome:
the same `STATUS`, the same events, and, where it succeeds, the same value in every register it writes. -/
def Obligations.CommandsReadTheirRowOfTheAccessMatrixOnly : Prop :=
  ∀ (i : Instr) (s s' : State),
    (∀ r : Reg, readsReg s.um s.snlen i r = true → readReg r s = readReg r s') →
    ∃ t t' evs, exec i s = .next t ∧ exec i s' = .next t' ∧ t.status = t'.status ∧
      t.events = s.events ++ evs ∧ t'.events = s'.events ++ evs ∧
      (codeOf t.status = 0 → ∀ r : Reg, writesReg s.um i r = true → readReg r t = readReg r t')

/-- R15: bytes of `SN` at or beyond `SNLEN` never influence a result. -/
def Obligations.SerialBytesBeyondTheLengthNeverInfluenceAResult : Prop :=
  ∀ (i : Instr) (s : State) (sn' : Bytes 10),
    (∀ (j : Nat) (_ : j < 10), j < s.snlen.toNat → sn'[j] = s.sn[j]) →
    ∃ t, exec i s = .next t ∧ exec i { s with sn := sn' } = .next { t with sn := sn' }

/-- Only the host, by a register write or a reset, changes `UM`, `SNLEN`, `SN` and `SK` (R13, R14, R16). -/
def Obligations.OnlyTheHostChangesTheSuppliedOperands : Prop :=
  ∀ s t : State, step s = .next t → ¬ (t.um = s.um ∧ t.snlen = s.snlen ∧ t.sn = s.sn ∧ t.sk = s.sk) →
    ∃ x rest, s.inputs = x :: rest ∧
      (x = .reset ∨ ∃ a v, x = .transaction ⟨true, a, v⟩ ∧ a ≠ 0x07)

/-- Only `DIV` and reset change `DK` (R18). -/
def Obligations.OnlyDivAndResetChangeDk : Prop :=
  ∀ s t : State, step s = .next t → t.dk ≠ s.dk →
    ∃ x rest, s.inputs = x :: rest ∧
      (x = .reset ∨ ∃ w, x = .transaction ⟨true, 0x07, w⟩ ∧ decode w = .ok .div)

/-- Only a command and reset change `STATUS` and the event output: host reads, host register writes and refused
transactions do not (R19, R47, R175). -/
def Obligations.OnlyCommandsAndResetChangeStatusAndEvents : Prop :=
  ∀ s t : State, step s = .next t → (t.status ≠ s.status ∨ t.events ≠ s.events) →
    ∃ x rest, s.inputs = x :: rest ∧ (x = .reset ∨ ∃ w, x = .transaction ⟨true, 0x07, w⟩)

/-- The tables serve the 8-byte path and `SCR` and `DSCR` only, and the AES port the MES path only (R85, R94,
R105, R120). -/
def Obligations.TablesServeTheEightByteAndAesTheMesPathOnly : Prop :=
  ∀ (P Q : Config.Params) (i : Instr) (s : State),
    (P.aesEnc = Q.aesEnc → P.aesDec = Q.aesDec →
      i ∈ [.valid, .div, .pack8, .unpk8, .packm, .unpkm, .encm, .decm] ∨ (i ∈ [.enc, .dec] ∧ s.um = 1) →
      command P i s = command Q i s) ∧
    (P.sbox = Q.sbox →
      (i ∉ [.encm, .decm, .enc, .dec] ∨ (i ∈ [.enc, .dec] ∧ s.um = 0) ∨ s.snlen.toNat > 4) →
      command P i s = command Q i s)

/-! ## SCR and DSCR -/

/-- R82: `SCR n` with `n` at most 16 substitutes `WB[0..n-1]` by the forward table, keeps every other register,
and reports `OK`; with a larger `n` it raises `ERR_OPERAND` and keeps `WB` too. Its word is `(n << 8) | 0x10`. -/
def Obligations.ScrSubstitutesTheFirstBytesForward : Prop :=
  ∀ (n : Nat) (s : State),
    (n < 256 → decode ((BitVec.ofNat 32 n <<< 8) ||| 0x10) = .ok (.scr n)) ∧
    (n ≤ 16 → ∃ wb' : Bytes 16,
      exec (.scr n) s = .next { s with wb := wb', status := 0, events := s.events ++ [.ok] } ∧
      ∀ (i : Nat) (_ : i < 16), wb'[i] = if i < n then Config.chip.sbox s.wb[i] else s.wb[i]) ∧
    (n > 16 → exec (.scr n) s = .next { s with status := 7, events := s.events ++ [.err .operand] })

/-- R83: `DSCR n`, alike with the inverse table. Its word is `(n << 8) | 0x11`. -/
def Obligations.DscrSubstitutesTheFirstBytesInversely : Prop :=
  ∀ (n : Nat) (s : State),
    (n < 256 → decode ((BitVec.ofNat 32 n <<< 8) ||| 0x11) = .ok (.dscr n)) ∧
    (n ≤ 16 → ∃ wb' : Bytes 16,
      exec (.dscr n) s = .next { s with wb := wb', status := 0, events := s.events ++ [.ok] } ∧
      ∀ (i : Nat) (_ : i < 16), wb'[i] = if i < n then Config.chip.sbox.symm s.wb[i] else s.wb[i]) ∧
    (n > 16 → exec (.dscr n) s = .next { s with status := 7, events := s.events ++ [.err .operand] })

/-- `SCR n` and then `DSCR n` restores `WB`, and so does `DSCR n` and then `SCR n` (R85 (a)). -/
def Obligations.ScrAndDscrUndoEachOther : Prop :=
  ∀ (n : Nat) (s : State), n ≤ 16 →
    (∃ t u, exec (.scr n) s = .next t ∧ exec (.dscr n) t = .next u ∧ u.wb = s.wb) ∧
    (∃ t u, exec (.dscr n) s = .next t ∧ exec (.scr n) t = .next u ∧ u.wb = s.wb)

/-- After `DEC8`, `SCR 8` brings the wire block back (R196). -/
def Obligations.ScrEightRecoversTheWireBlockAfterDec8 : Prop :=
  ∀ s : State, ∃ t u, exec .dec8 s = .next t ∧ exec (.scr 8) t = .next u ∧ u.wb = s.wb

/-! ## DIV -/

/-- R91, R92: `DIV` with `SNLEN` at most 10 writes the diversified key to `DK` and keeps every other register;
with a larger `SNLEN` it raises `ERR_DIV_LEN` and keeps `DK`. -/
def Obligations.DivWritesTheDiversifiedKeyToDk : Prop :=
  decode 0x00000020 = .ok .div ∧ ∀ s : State,
    (s.snlen.toNat ≤ 10 → ∃ dk' : Bytes 16,
      exec .div s = .next { s with dk := dk', status := 0, events := s.events ++ [.ok] } ∧
      (∀ (i : Nat) (_ : i < 10), i < s.snlen.toNat → dk'[i] = s.sk[i] ^^^ s.sn[i]) ∧
      ∀ (i : Nat) (_ : i < 16), s.snlen.toNat ≤ i → dk'[i] = s.sk[i]) ∧
    (s.snlen.toNat > 10 → exec .div s = .next { s with status := 5, events := s.events ++ [.err .divLen] })

/-- The laws of `Deversify` (R93 (b) to (e)): the empty serial number changes nothing, twice is the identity,
serial numbers of one length give keys that differ exactly where they differ, zero bytes more change nothing. -/
def Obligations.DeversifyLaws : Prop :=
  ∀ (sk : Bytes 16) (a : List Byte) (ha : a.length ≤ 16),
    deversify sk [] (by decide) = sk ∧
    deversify (deversify sk a ha) a ha = sk ∧
    (∀ (b : List Byte) (hb : b.length ≤ 16), a.length = b.length → ∀ (i : Nat) (hi : i < a.length)
      (hi' : i < b.length), (deversify sk a ha)[i] ≠ (deversify sk b hb)[i] ↔ a[i] ≠ b[i]) ∧
    (∀ (n : Nat) (hn : (a ++ List.replicate n (0x00 : Byte)).length ≤ 16),
      deversify sk (a ++ List.replicate n 0x00) hn = deversify sk a ha)

/-! ## The 8-byte codec -/

/-- R101, R103: `PACK8` computes the encode formulas on the fields as numbers into `WB[0..7]`, keeps `WB[8..15]`
and every other register, and reports `OK` whatever the fields hold. -/
def Obligations.Pack8PacksByTheFormulas : Prop :=
  decode 0x00000030 = .ok .pack8 ∧ ∀ s : State, ∃ (wb' : Bytes 16) (b : Bytes 8),
    exec .pack8 s = .next { s with wb := wb', status := 0, events := s.events ++ [.ok] } ∧
    Packs8 s.rc.toNat s.fc.toNat s.cn.toNat s.il.toNat b ∧
    ∀ (i : Nat) (_ : i < 16), wb'[i] = if h : i < 8 then b[i] else s.wb[i]

/-- The bit table of the 8-byte plaintext, which the spec reads off the formulas: `PACK8` puts every field bit
where it says, and zeros elsewhere (R100). -/
def Obligations.Pack8PlacesEveryFieldBit : Prop :=
  ∀ s : State, ∃ (t : State) (b : Bytes 8), exec .pack8 s = .next t ∧
    (∀ (i : Nat) (_ : i < 8), b[i] = t.wb[i]) ∧ Layout8 s.rc s.fc s.cn s.il b

/-- R102, R104: `UNPK8` loads the four numbers that the decode formulas give for `WB[0..7]`, zero-extended, and
keeps every other register. -/
def Obligations.Unpk8ExtractsByTheFormulas : Prop :=
  decode 0x00000031 = .ok .unpk8 ∧ ∀ s : State, ∃ (rc' fc' cn' il' : Word) (b : Bytes 8),
    exec .unpk8 s = .next { s with
      rc := rc', fc := fc', cn := cn', il := il', status := 0, events := s.events ++ [.ok] } ∧
    (∀ (i : Nat) (_ : i < 8), b[i] = s.wb[i]) ∧ Unpacks8 b rc'.toNat fc'.toNat cn'.toNat il'.toNat

/-- R105: `ENC8` leaves the substituted packing of the fields in `WB[0..7]` and keeps every other register; its
effect on the registers is that of `PACK8` and then `SCR 8`. -/
def Obligations.Enc8LeavesTheSubstitutedPacking : Prop :=
  decode 0x00000032 = .ok .enc8 ∧
  (∀ s : State, ∃ (wb' : Bytes 16) (b : Bytes 8),
    exec .enc8 s = .next { s with wb := wb', status := 0, events := s.events ++ [.ok] } ∧
    Packs8 s.rc.toNat s.fc.toNat s.cn.toNat s.il.toNat b ∧
    ∀ (i : Nat) (_ : i < 16), wb'[i] = if h : i < 8 then Config.chip.sbox b[i] else s.wb[i]) ∧
  ∀ s : State, ∃ t u v, exec .enc8 s = .next t ∧ exec .pack8 s = .next u ∧ exec (.scr 8) u = .next v ∧
    SameRegisters t v

/-- R106: `DEC8` loads the fields of the descrambled `WB[0..7]`, leaves that plaintext there, and keeps every
other register; its effect on the registers is that of `DSCR 8` and then `UNPK8`. -/
def Obligations.Dec8LoadsTheFieldsOfTheDescrambledBlock : Prop :=
  decode 0x00000033 = .ok .dec8 ∧
  (∀ s : State, ∃ (wb' : Bytes 16) (b : Bytes 8) (rc' fc' cn' il' : Word),
    exec .dec8 s = .next { s with
      wb := wb', rc := rc', fc := fc', cn := cn', il := il', status := 0, events := s.events ++ [.ok] } ∧
    (∀ (i : Nat) (_ : i < 8), b[i] = Config.chip.sbox.symm s.wb[i]) ∧
    Unpacks8 b rc'.toNat fc'.toNat cn'.toNat il'.toNat ∧
    ∀ (i : Nat) (_ : i < 16), wb'[i] = if h : i < 8 then b[i] else s.wb[i]) ∧
  ∀ s : State, ∃ t u v, exec .dec8 s = .next t ∧ exec (.dscr 8) s = .next u ∧ exec .unpk8 u = .next v ∧
    SameRegisters t v

/-- R107: `ENC8` then `DEC8`, and `PACK8` then `UNPK8`, leave every field truncated to its declared width; and
in-range credentials with the same packing are equal. -/
def Obligations.EightByteRoundTripTruncatesTheFields : Prop :=
  (∀ s : State, ∃ t u, exec .enc8 s = .next t ∧ exec .dec8 t = .next u ∧
    u.rc = s.rc &&& 0xF ∧ u.fc = s.fc &&& 0xFFFF ∧ u.cn = s.cn &&& 0xFFFFFF ∧ u.il = s.il &&& 0xF) ∧
  (∀ s : State, ∃ t u, exec .pack8 s = .next t ∧ exec .unpk8 t = .next u ∧
    u.rc = s.rc &&& 0xF ∧ u.fc = s.fc &&& 0xFFFF ∧ u.cn = s.cn &&& 0xFFFFFF ∧ u.il = s.il &&& 0xF) ∧
  (∀ s s' : State, InRange s → InRange s' → ∀ t t', exec .pack8 s = .next t → exec .pack8 s' = .next t' →
    (∀ (i : Nat) (_ : i < 8), t.wb[i] = t'.wb[i]) →
    s.rc = s'.rc ∧ s.fc = s'.fc ∧ s.cn = s'.cn ∧ s.il = s'.il)

/-- `PACK8` after `UNPK8` gives the block back with the sixteen ignored bits cleared, and neither reports
anything (R108). -/
def Obligations.RepackingClearsTheIgnoredBits : Prop :=
  ∀ s : State, ∃ t u, exec .unpk8 s = .next t ∧ exec .pack8 t = .next u ∧ t.status = 0 ∧ u.status = 0 ∧
    u.wb[0] = s.wb[0] ∧ u.wb[1] = s.wb[1] ∧ u.wb[2] = s.wb[2] ∧ u.wb[3] = s.wb[3] &&& 0xFE ∧
    u.wb[4] = s.wb[4] &&& 0x1F ∧ u.wb[5] = s.wb[5] &&& 0x0F ∧ u.wb[6] = 0x00 ∧ u.wb[7] = s.wb[7] ∧
    ∀ (i : Nat) (_ : i < 16), 8 ≤ i → u.wb[i] = s.wb[i]

/-! ## The MES codec -/

/-- R124: with `SNLEN` above 4, `PACKM`, `ENCM`, `DECM`, and with `UM` = 1 `ENC` and `DEC`, raise
`ERR_SERIAL_LEN` and change no other register, whatever the AES port is; with `SNLEN` at most 4 none of them
does; and `UNPKM` does not look at `SNLEN`. -/
def Obligations.MesCommandsRejectLongSerialNumbers : Prop :=
  (∀ (P : Config.Params) (s : State) (i : Instr),
    i ∈ [.packm, .encm, .decm] ∨ (i ∈ [.enc, .dec] ∧ s.um = 1) →
    (s.snlen.toNat > 4 →
      command P i s = { s with status := 2, events := s.events ++ [.err .serialLen] }) ∧
    (s.snlen.toNat ≤ 4 → (command P i s).status ≠ 2)) ∧
  (∀ (s : State) (i : Instr), i ∈ [.packm, .encm, .decm] ∨ (i ∈ [.enc, .dec] ∧ s.um = 1) →
    s.snlen.toNat > 4 →
    exec i s = .next { s with status := 2, events := s.events ++ [.err .serialLen] }) ∧
  (∀ (s : State) (n : BitVec 8), ∃ t, exec .unpkm s = .next t ∧
    exec .unpkm { s with snlen := n } = .next { t with snlen := n })

/-- R122, R125: `PACKM` with `SNLEN` at most 4 leaves the MES plaintext of the fields and the serial number in
`WB` and keeps every other register; with a larger `SNLEN` it raises `ERR_SERIAL_LEN` and keeps `WB` too. -/
def Obligations.PackmLeavesTheMesPlaintext : Prop :=
  decode 0x00000040 = .ok .packm ∧ ∀ s : State,
    (s.snlen.toNat ≤ 4 → ∃ p : Bytes 16,
      exec .packm s = .next { s with wb := p, status := 0, events := s.events ++ [.ok] } ∧ LayoutMes s p) ∧
    (s.snlen.toNat > 4 →
      exec .packm s = .next { s with status := 2, events := s.events ++ [.err .serialLen] })

/-- R126: `UNPKM` of a plaintext with the marker loads the fields it carries and reports `OK`, with the warning
and its event exactly when the trailing constant is not 0x0748; without the marker it raises `ERR_MARKER` and
keeps the fields. Every other register is kept. -/
def Obligations.UnpkmLoadsTheFieldsOfAMarkedPlaintext : Prop :=
  decode 0x00000041 = .ok .unpkm ∧ ∀ s : State,
    (s.wb[0] = 0x01 → ∃ (rc' fc' cn' il' : Word) (x : BitVec 16),
      TrailerFound s.wb x ∧ CarriesMes s.wb rc' fc' cn' il' ∧
      exec .unpkm s = .next { s with
        rc := rc', fc := fc', cn := cn', il := il',
        status := if x = 0x0748 then 0 else 0x10,
        events := s.events ++ (if x = 0x0748 then [.ok] else [.trailer x, .ok]) }) ∧
    (s.wb[0] ≠ 0x01 → exec .unpkm s = .next { s with status := 4, events := s.events ++ [.err .marker] })

/-- R127, R128: `ENCM` with `SNLEN` at most 4 hands the diversified key and the MES plaintext to the AES port,
leaves the block it answers in `WB`, and keeps every other register; where it answers `KEYERR` the command
raises `ERR_KEY_SETUP` and keeps `WB` too. With a larger `SNLEN` it raises `ERR_SERIAL_LEN`. -/
def Obligations.EncmLeavesTheCiphertextOfThePort : Prop :=
  decode 0x00000042 = .ok .encm ∧ ∀ s : State,
    (s.snlen.toNat ≤ 4 → ∃ (k p : Bytes 16) (t : State),
      DiversifiedKey s k ∧ LayoutMes s p ∧ exec .encm s = .next t ∧
      match Config.chip.aesEnc k p with
      | .block c => t = { s with wb := c, status := 0, events := s.events ++ [.ok] }
      | .keyErr => t = { s with status := 3, events := s.events ++ [.err .keySetup] }) ∧
    (s.snlen.toNat > 4 →
      exec .encm s = .next { s with status := 2, events := s.events ++ [.err .serialLen] })

/-- R127, R130: `DECM` with `SNLEN` at most 4 hands the diversified key and `WB` to the AES port, and loads the
fields that the plaintext it answers carries, with the warning as `UNPKM`; `KEYERR` raises `ERR_KEY_SETUP`, a
plaintext without the marker `ERR_MARKER`, and both keep the fields. With a larger `SNLEN` it raises
`ERR_SERIAL_LEN`. `WB` and every other register are kept. -/
def Obligations.DecmLoadsTheFieldsOfTheDecryptedBlock : Prop :=
  decode 0x00000043 = .ok .decm ∧ ∀ s : State,
    (s.snlen.toNat ≤ 4 → ∃ (k : Bytes 16) (t : State),
      DiversifiedKey s k ∧ exec .decm s = .next t ∧
      match Config.chip.aesDec k s.wb with
      | .keyErr => t = { s with status := 3, events := s.events ++ [.err .keySetup] }
      | .block p =>
        (p[0] ≠ 0x01 → t = { s with status := 4, events := s.events ++ [.err .marker] }) ∧
        (p[0] = 0x01 → ∃ (rc' fc' cn' il' : Word) (x : BitVec 16),
          TrailerFound p x ∧ CarriesMes p rc' fc' cn' il' ∧
          t = { s with
            rc := rc', fc := fc', cn := cn', il := il',
            status := if x = 0x0748 then 0 else 0x10,
            events := s.events ++ (if x = 0x0748 then [.ok] else [.trailer x, .ok]) })) ∧
    (s.snlen.toNat > 4 →
      exec .decm s = .next { s with status := 2, events := s.events ++ [.err .serialLen] })

/-- R132: under `AES_INVERSE`, `ENCM` and then `DECM`, neither answered `KEYERR` nor turned away, leave every
field truncated to its declared width, `CODE` `OK` and no warning; and so do `PACKM` and then `UNPKM`, without
the port. -/
def Obligations.MesRoundTripTruncatesTheFields : Prop :=
  (∀ (P : Config.Params) (s : State), P.AesInverse →
    codeOf (command P .encm s).status = 0 →
    codeOf (command P .decm (command P .encm s)).status ≠ ErrorKind.keySetup.code →
    let u := command P .decm (command P .encm s)
    u.rc = s.rc &&& 0xF ∧ u.fc = s.fc &&& 0xFFFF ∧ u.cn = s.cn &&& 0xFFFFFF ∧ u.il = s.il &&& 0xF ∧
    u.status = 0) ∧
  (∀ s : State, s.snlen.toNat ≤ 4 → ∃ t u, exec .packm s = .next t ∧ exec .unpkm t = .next u ∧
    u.rc = s.rc &&& 0xF ∧ u.fc = s.fc &&& 0xFFFF ∧ u.cn = s.cn &&& 0xFFFFFF ∧ u.il = s.il &&& 0xF ∧
    u.status = 0)

/-- The known vector of the source, under `AES_FIPS197` (examples 1.4 and 2.5 of `95_test_vectors.md`): `ENCM`
gives the ciphertext, and `DECM` of it with other fields loaded gives the fields back. The premise is general
knowledge of AES (log entry 13). -/
def Obligations.KnownVectorUnderFips197 : Prop :=
  ∀ P : Config.Params, P.AesFips197 →
    let key : Bytes 16 := #v[0x13, 0x37, 0xD0, 0x0D, 0x13, 0x37, 0xD0, 0x0D,
      0x13, 0x37, 0xD0, 0x0D, 0x13, 0x37, 0xD0, 0x0D]
    let serialBytes : Bytes 10 := #v[0x3C, 0x54, 0x51, 0xE3, 0, 0, 0, 0, 0, 0]
    let cipher : Bytes 16 := #v[0x4F, 0x36, 0xB7, 0x4E, 0xFF, 0xCD, 0x76, 0xEF,
      0xED, 0xA5, 0x74, 0x58, 0xC8, 0xB4, 0xE3, 0x04]
    let start : State := { State.reset with
      rc := 12, fc := 0x1337, cn := 0xF00D, il := 1, snlen := 4, sn := serialBytes, sk := key }
    command P .encm start = { start with wb := cipher, events := [.ok] } ∧
    command P .decm { start with rc := 7, fc := 7, cn := 7, il := 7, wb := cipher } =
      { start with wb := cipher, events := [.ok] }

/-! ## VALID, ENC, DEC -/

/-- R150, R151: `VALID` compares the four fields with their bounds, reports every violated one in its `VF` bit
and its event, and changes no register but `STATUS`. -/
def Obligations.ValidReportsEveryViolatedField : Prop :=
  decode 0x00000001 = .ok .valid ∧ ∀ s : State,
    (InRange s → exec .valid s = .next { s with status := 0, events := s.events ++ [.ok] }) ∧
    (¬ InRange s → exec .valid s = .next { s with
      status := 1 ||| (if s.rc.toNat > 15 then 0x100 else 0) |||
        (if s.fc.toNat > 65535 then 0x200 else 0) ||| (if s.cn.toNat > 16777215 then 0x400 else 0) |||
        (if s.il.toNat > 15 then 0x800 else 0)
      events := s.events ++ ((if s.rc.toNat > 15 then [.field .rc] else []) ++
        (if s.fc.toNat > 65535 then [.field .fc] else []) ++
        (if s.cn.toNat > 16777215 then [.field .cn] else []) ++
        (if s.il.toNat > 15 then [.field .il] else []) ++ [.err .range]) })

/-- `VALID` reports `OK` exactly when packing loses no bit of any field: when `PACK8` and then `UNPK8` leave the
fields as they were (section 4 of `95_test_vectors.md`; R101, R150). -/
def Obligations.ValidHoldsExactlyWhenPackingLosesNothing : Prop :=
  ∀ s : State, ∃ v t u, exec .valid s = .next v ∧ exec .pack8 s = .next t ∧ exec .unpk8 t = .next u ∧
    (codeOf v.status = 0 ↔ u.rc = s.rc ∧ u.fc = s.fc ∧ u.cn = s.cn ∧ u.il = s.il)

/-- R153: `ENC` is `ENC8` with `UM` = 0 and `ENCM` with `UM` = 1, whole: it goes on to the same state. With
`UM` = 0 it raises no error, with `UM` = 1 none but `ERR_SERIAL_LEN` and `ERR_KEY_SETUP`. -/
def Obligations.EncIsTheCommandTheFlagSelects : Prop :=
  decode 0x00000050 = .ok .enc ∧ ∀ s : State,
    (s.um = 0 → ∃ t, exec .enc s = .next t ∧ exec .enc8 s = .next t ∧ t.status = 0) ∧
    (s.um = 1 → ∃ t, exec .enc s = .next t ∧ exec .encm s = .next t ∧
      (t.status = 0 ∨ t.status = 2 ∨ t.status = 3))

/-- R154: `DEC` is `DEC8` with `UM` = 0 and `DECM` with `UM` = 1, whole: it goes on to the same state. It keeps
`UM`, and with `UM` = 1 it keeps `WB`. -/
def Obligations.DecIsTheCommandTheFlagSelects : Prop :=
  decode 0x00000051 = .ok .dec ∧ ∀ s : State,
    (s.um = 0 → ∃ t, exec .dec s = .next t ∧ exec .dec8 s = .next t ∧ t.um = s.um) ∧
    (s.um = 1 → ∃ t, exec .dec s = .next t ∧ exec .decm s = .next t ∧ t.um = s.um ∧ t.wb = s.wb)
end

