-- ==== Sys2Proof/Laws/State.lean ====
section
/-! SUPPORT. Each field of the state after each shared update of the state: no later proof unfolds one. -/

namespace Sys2Proof.Machine

/-! ## emit -/

@[simp] theorem emit_rc (evs : List Event) (s : State) : (emit evs s).rc = s.rc := rfl
@[simp] theorem emit_fc (evs : List Event) (s : State) : (emit evs s).fc = s.fc := rfl
@[simp] theorem emit_cn (evs : List Event) (s : State) : (emit evs s).cn = s.cn := rfl
@[simp] theorem emit_il (evs : List Event) (s : State) : (emit evs s).il = s.il := rfl
@[simp] theorem emit_um (evs : List Event) (s : State) : (emit evs s).um = s.um := rfl
@[simp] theorem emit_snlen (evs : List Event) (s : State) : (emit evs s).snlen = s.snlen := rfl
@[simp] theorem emit_sn (evs : List Event) (s : State) : (emit evs s).sn = s.sn := rfl
@[simp] theorem emit_sk (evs : List Event) (s : State) : (emit evs s).sk = s.sk := rfl
@[simp] theorem emit_wb (evs : List Event) (s : State) : (emit evs s).wb = s.wb := rfl
@[simp] theorem emit_dk (evs : List Event) (s : State) : (emit evs s).dk = s.dk := rfl
@[simp] theorem emit_status (evs : List Event) (s : State) : (emit evs s).status = s.status := rfl
@[simp] theorem emit_events (evs : List Event) (s : State) : (emit evs s).events = s.events ++ evs := rfl
@[simp] theorem emit_inputs (evs : List Event) (s : State) : (emit evs s).inputs = s.inputs := rfl
@[simp] theorem emit_responses (evs : List Event) (s : State) : (emit evs s).responses = s.responses := rfl

/-! ## complete -/

@[simp] theorem complete_rc (s : State) : (complete s).rc = s.rc := rfl
@[simp] theorem complete_fc (s : State) : (complete s).fc = s.fc := rfl
@[simp] theorem complete_cn (s : State) : (complete s).cn = s.cn := rfl
@[simp] theorem complete_il (s : State) : (complete s).il = s.il := rfl
@[simp] theorem complete_um (s : State) : (complete s).um = s.um := rfl
@[simp] theorem complete_snlen (s : State) : (complete s).snlen = s.snlen := rfl
@[simp] theorem complete_sn (s : State) : (complete s).sn = s.sn := rfl
@[simp] theorem complete_sk (s : State) : (complete s).sk = s.sk := rfl
@[simp] theorem complete_wb (s : State) : (complete s).wb = s.wb := rfl
@[simp] theorem complete_dk (s : State) : (complete s).dk = s.dk := rfl
@[simp] theorem complete_status (s : State) : (complete s).status = statusOk := rfl
@[simp] theorem complete_events (s : State) : (complete s).events = s.events ++ [.ok] := rfl
@[simp] theorem complete_inputs (s : State) : (complete s).inputs = s.inputs := rfl
@[simp] theorem complete_responses (s : State) : (complete s).responses = s.responses := rfl

/-! ## completeWarn -/

@[simp] theorem completeWarn_rc (t : BitVec 16) (s : State) : (completeWarn t s).rc = s.rc := rfl
@[simp] theorem completeWarn_fc (t : BitVec 16) (s : State) : (completeWarn t s).fc = s.fc := rfl
@[simp] theorem completeWarn_cn (t : BitVec 16) (s : State) : (completeWarn t s).cn = s.cn := rfl
@[simp] theorem completeWarn_il (t : BitVec 16) (s : State) : (completeWarn t s).il = s.il := rfl
@[simp] theorem completeWarn_um (t : BitVec 16) (s : State) : (completeWarn t s).um = s.um := rfl
@[simp] theorem completeWarn_snlen (t : BitVec 16) (s : State) : (completeWarn t s).snlen = s.snlen := rfl
@[simp] theorem completeWarn_sn (t : BitVec 16) (s : State) : (completeWarn t s).sn = s.sn := rfl
@[simp] theorem completeWarn_sk (t : BitVec 16) (s : State) : (completeWarn t s).sk = s.sk := rfl
@[simp] theorem completeWarn_wb (t : BitVec 16) (s : State) : (completeWarn t s).wb = s.wb := rfl
@[simp] theorem completeWarn_dk (t : BitVec 16) (s : State) : (completeWarn t s).dk = s.dk := rfl
@[simp] theorem completeWarn_status (t : BitVec 16) (s : State) : (completeWarn t s).status = statusWarn := rfl
@[simp] theorem completeWarn_events (t : BitVec 16) (s : State) : (completeWarn t s).events = s.events ++ [.trailer t, .ok] := rfl
@[simp] theorem completeWarn_inputs (t : BitVec 16) (s : State) : (completeWarn t s).inputs = s.inputs := rfl
@[simp] theorem completeWarn_responses (t : BitVec 16) (s : State) : (completeWarn t s).responses = s.responses := rfl

/-! ## raiseWith -/

@[simp] theorem raiseWith_rc (e : ErrorKind) (vf : Violations) (s : State) : (raiseWith e vf s).rc = s.rc := rfl
@[simp] theorem raiseWith_fc (e : ErrorKind) (vf : Violations) (s : State) : (raiseWith e vf s).fc = s.fc := rfl
@[simp] theorem raiseWith_cn (e : ErrorKind) (vf : Violations) (s : State) : (raiseWith e vf s).cn = s.cn := rfl
@[simp] theorem raiseWith_il (e : ErrorKind) (vf : Violations) (s : State) : (raiseWith e vf s).il = s.il := rfl
@[simp] theorem raiseWith_um (e : ErrorKind) (vf : Violations) (s : State) : (raiseWith e vf s).um = s.um := rfl
@[simp] theorem raiseWith_snlen (e : ErrorKind) (vf : Violations) (s : State) : (raiseWith e vf s).snlen = s.snlen := rfl
@[simp] theorem raiseWith_sn (e : ErrorKind) (vf : Violations) (s : State) : (raiseWith e vf s).sn = s.sn := rfl
@[simp] theorem raiseWith_sk (e : ErrorKind) (vf : Violations) (s : State) : (raiseWith e vf s).sk = s.sk := rfl
@[simp] theorem raiseWith_wb (e : ErrorKind) (vf : Violations) (s : State) : (raiseWith e vf s).wb = s.wb := rfl
@[simp] theorem raiseWith_dk (e : ErrorKind) (vf : Violations) (s : State) : (raiseWith e vf s).dk = s.dk := rfl
@[simp] theorem raiseWith_status (e : ErrorKind) (vf : Violations) (s : State) : (raiseWith e vf s).status = statusError e vf := rfl
@[simp] theorem raiseWith_events (e : ErrorKind) (vf : Violations) (s : State) : (raiseWith e vf s).events = s.events ++ (vf.events ++ [.err e]) := rfl
@[simp] theorem raiseWith_inputs (e : ErrorKind) (vf : Violations) (s : State) : (raiseWith e vf s).inputs = s.inputs := rfl
@[simp] theorem raiseWith_responses (e : ErrorKind) (vf : Violations) (s : State) : (raiseWith e vf s).responses = s.responses := rfl

/-! ## raise -/

@[simp] theorem raise_rc (e : ErrorKind) (s : State) : (raise e s).rc = s.rc := rfl
@[simp] theorem raise_fc (e : ErrorKind) (s : State) : (raise e s).fc = s.fc := rfl
@[simp] theorem raise_cn (e : ErrorKind) (s : State) : (raise e s).cn = s.cn := rfl
@[simp] theorem raise_il (e : ErrorKind) (s : State) : (raise e s).il = s.il := rfl
@[simp] theorem raise_um (e : ErrorKind) (s : State) : (raise e s).um = s.um := rfl
@[simp] theorem raise_snlen (e : ErrorKind) (s : State) : (raise e s).snlen = s.snlen := rfl
@[simp] theorem raise_sn (e : ErrorKind) (s : State) : (raise e s).sn = s.sn := rfl
@[simp] theorem raise_sk (e : ErrorKind) (s : State) : (raise e s).sk = s.sk := rfl
@[simp] theorem raise_wb (e : ErrorKind) (s : State) : (raise e s).wb = s.wb := rfl
@[simp] theorem raise_dk (e : ErrorKind) (s : State) : (raise e s).dk = s.dk := rfl
@[simp] theorem raise_status (e : ErrorKind) (s : State) : (raise e s).status = statusError e .none := rfl
@[simp] theorem raise_events (e : ErrorKind) (s : State) : (raise e s).events = s.events ++ [.err e] := rfl
@[simp] theorem raise_inputs (e : ErrorKind) (s : State) : (raise e s).inputs = s.inputs := rfl
@[simp] theorem raise_responses (e : ErrorKind) (s : State) : (raise e s).responses = s.responses := rfl

/-! ## respond -/

@[simp] theorem respond_rc (r : Response) (s : State) : (respond r s).rc = s.rc := rfl
@[simp] theorem respond_fc (r : Response) (s : State) : (respond r s).fc = s.fc := rfl
@[simp] theorem respond_cn (r : Response) (s : State) : (respond r s).cn = s.cn := rfl
@[simp] theorem respond_il (r : Response) (s : State) : (respond r s).il = s.il := rfl
@[simp] theorem respond_um (r : Response) (s : State) : (respond r s).um = s.um := rfl
@[simp] theorem respond_snlen (r : Response) (s : State) : (respond r s).snlen = s.snlen := rfl
@[simp] theorem respond_sn (r : Response) (s : State) : (respond r s).sn = s.sn := rfl
@[simp] theorem respond_sk (r : Response) (s : State) : (respond r s).sk = s.sk := rfl
@[simp] theorem respond_wb (r : Response) (s : State) : (respond r s).wb = s.wb := rfl
@[simp] theorem respond_dk (r : Response) (s : State) : (respond r s).dk = s.dk := rfl
@[simp] theorem respond_status (r : Response) (s : State) : (respond r s).status = s.status := rfl
@[simp] theorem respond_events (r : Response) (s : State) : (respond r s).events = s.events := rfl
@[simp] theorem respond_inputs (r : Response) (s : State) : (respond r s).inputs = s.inputs := rfl
@[simp] theorem respond_responses (r : Response) (s : State) : (respond r s).responses = s.responses ++ [r] := rfl

/-! ## loadFields -/

@[simp] theorem loadFields_rc (f : Fields) (s : State) : (loadFields f s).rc = f.rc.setWidth 32 := rfl
@[simp] theorem loadFields_fc (f : Fields) (s : State) : (loadFields f s).fc = f.fc.setWidth 32 := rfl
@[simp] theorem loadFields_cn (f : Fields) (s : State) : (loadFields f s).cn = f.cn.setWidth 32 := rfl
@[simp] theorem loadFields_il (f : Fields) (s : State) : (loadFields f s).il = f.il.setWidth 32 := rfl
@[simp] theorem loadFields_um (f : Fields) (s : State) : (loadFields f s).um = s.um := rfl
@[simp] theorem loadFields_snlen (f : Fields) (s : State) : (loadFields f s).snlen = s.snlen := rfl
@[simp] theorem loadFields_sn (f : Fields) (s : State) : (loadFields f s).sn = s.sn := rfl
@[simp] theorem loadFields_sk (f : Fields) (s : State) : (loadFields f s).sk = s.sk := rfl
@[simp] theorem loadFields_wb (f : Fields) (s : State) : (loadFields f s).wb = s.wb := rfl
@[simp] theorem loadFields_dk (f : Fields) (s : State) : (loadFields f s).dk = s.dk := rfl
@[simp] theorem loadFields_status (f : Fields) (s : State) : (loadFields f s).status = s.status := rfl
@[simp] theorem loadFields_events (f : Fields) (s : State) : (loadFields f s).events = s.events := rfl
@[simp] theorem loadFields_inputs (f : Fields) (s : State) : (loadFields f s).inputs = s.inputs := rfl
@[simp] theorem loadFields_responses (f : Fields) (s : State) : (loadFields f s).responses = s.responses := rfl

/-! ## storeLow8 -/

@[simp] theorem storeLow8_rc (b : Bytes 8) (s : State) : (storeLow8 b s).rc = s.rc := rfl
@[simp] theorem storeLow8_fc (b : Bytes 8) (s : State) : (storeLow8 b s).fc = s.fc := rfl
@[simp] theorem storeLow8_cn (b : Bytes 8) (s : State) : (storeLow8 b s).cn = s.cn := rfl
@[simp] theorem storeLow8_il (b : Bytes 8) (s : State) : (storeLow8 b s).il = s.il := rfl
@[simp] theorem storeLow8_um (b : Bytes 8) (s : State) : (storeLow8 b s).um = s.um := rfl
@[simp] theorem storeLow8_snlen (b : Bytes 8) (s : State) : (storeLow8 b s).snlen = s.snlen := rfl
@[simp] theorem storeLow8_sn (b : Bytes 8) (s : State) : (storeLow8 b s).sn = s.sn := rfl
@[simp] theorem storeLow8_sk (b : Bytes 8) (s : State) : (storeLow8 b s).sk = s.sk := rfl
@[simp] theorem storeLow8_wb (b : Bytes 8) (s : State) : (storeLow8 b s).wb = .gen fun i => if h : i.val < 8 then b[i.val] else s.wb[i] := rfl
@[simp] theorem storeLow8_dk (b : Bytes 8) (s : State) : (storeLow8 b s).dk = s.dk := rfl
@[simp] theorem storeLow8_status (b : Bytes 8) (s : State) : (storeLow8 b s).status = s.status := rfl
@[simp] theorem storeLow8_events (b : Bytes 8) (s : State) : (storeLow8 b s).events = s.events := rfl
@[simp] theorem storeLow8_inputs (b : Bytes 8) (s : State) : (storeLow8 b s).inputs = s.inputs := rfl
@[simp] theorem storeLow8_responses (b : Bytes 8) (s : State) : (storeLow8 b s).responses = s.responses := rfl

/-! ## storeBlock -/

@[simp] theorem storeBlock_rc (b : Bytes 16) (s : State) : (storeBlock b s).rc = s.rc := rfl
@[simp] theorem storeBlock_fc (b : Bytes 16) (s : State) : (storeBlock b s).fc = s.fc := rfl
@[simp] theorem storeBlock_cn (b : Bytes 16) (s : State) : (storeBlock b s).cn = s.cn := rfl
@[simp] theorem storeBlock_il (b : Bytes 16) (s : State) : (storeBlock b s).il = s.il := rfl
@[simp] theorem storeBlock_um (b : Bytes 16) (s : State) : (storeBlock b s).um = s.um := rfl
@[simp] theorem storeBlock_snlen (b : Bytes 16) (s : State) : (storeBlock b s).snlen = s.snlen := rfl
@[simp] theorem storeBlock_sn (b : Bytes 16) (s : State) : (storeBlock b s).sn = s.sn := rfl
@[simp] theorem storeBlock_sk (b : Bytes 16) (s : State) : (storeBlock b s).sk = s.sk := rfl
@[simp] theorem storeBlock_wb (b : Bytes 16) (s : State) : (storeBlock b s).wb = b := rfl
@[simp] theorem storeBlock_dk (b : Bytes 16) (s : State) : (storeBlock b s).dk = s.dk := rfl
@[simp] theorem storeBlock_status (b : Bytes 16) (s : State) : (storeBlock b s).status = s.status := rfl
@[simp] theorem storeBlock_events (b : Bytes 16) (s : State) : (storeBlock b s).events = s.events := rfl
@[simp] theorem storeBlock_inputs (b : Bytes 16) (s : State) : (storeBlock b s).inputs = s.inputs := rfl
@[simp] theorem storeBlock_responses (b : Bytes 16) (s : State) : (storeBlock b s).responses = s.responses := rfl

/-! ## takeReset -/

@[simp] theorem takeReset_rc (s : State) : (takeReset s).rc = State.reset.rc := rfl
@[simp] theorem takeReset_fc (s : State) : (takeReset s).fc = State.reset.fc := rfl
@[simp] theorem takeReset_cn (s : State) : (takeReset s).cn = State.reset.cn := rfl
@[simp] theorem takeReset_il (s : State) : (takeReset s).il = State.reset.il := rfl
@[simp] theorem takeReset_um (s : State) : (takeReset s).um = State.reset.um := rfl
@[simp] theorem takeReset_snlen (s : State) : (takeReset s).snlen = State.reset.snlen := rfl
@[simp] theorem takeReset_sn (s : State) : (takeReset s).sn = State.reset.sn := rfl
@[simp] theorem takeReset_sk (s : State) : (takeReset s).sk = State.reset.sk := rfl
@[simp] theorem takeReset_wb (s : State) : (takeReset s).wb = State.reset.wb := rfl
@[simp] theorem takeReset_dk (s : State) : (takeReset s).dk = State.reset.dk := rfl
@[simp] theorem takeReset_status (s : State) : (takeReset s).status = State.reset.status := rfl
@[simp] theorem takeReset_events (s : State) : (takeReset s).events = State.reset.events := rfl
@[simp] theorem takeReset_inputs (s : State) : (takeReset s).inputs = s.inputs := rfl
@[simp] theorem takeReset_responses (s : State) : (takeReset s).responses = s.responses := rfl

/-! ## The ends of a command as record updates -/

@[simp] theorem statusOk_eq : statusOk = 0 := by decide

@[simp] theorem statusWarn_eq : statusWarn = 0x10 := by decide

theorem complete_eq (s : State) : complete s = { s with status := 0, events := s.events ++ [.ok] } := by
  simp [complete, emit]

theorem completeWarn_eq (t : BitVec 16) (s : State) :
    completeWarn t s = { s with status := 0x10, events := s.events ++ [.trailer t, .ok] } := by
  simp [completeWarn, emit]

theorem raise_eq (e : ErrorKind) (s : State) :
    raise e s = { s with status := e.code.setWidth 32, events := s.events ++ [.err e] } := by
  cases e <;> rfl

/-! ## The state with a command word to come -/

@[simp] theorem withFetchWord_inputs (s : State) (nbits w : Nat) :
    (s.withFetchWord nbits w).inputs = commandWrite (BitVec.ofNat 32 (w % 2 ^ nbits)) :: s.inputs := rfl

theorem withFetchWord_rest (s : State) (nbits w : Nat) :
    { s.withFetchWord nbits w with inputs := s.inputs } = s := rfl

end Sys2Proof.Machine
end

