-- ==== Sys2Proof/Laws/Codec.lean ====
section
/-! SUPPORT. The codec functions bit by bit: what each byte holds of each field, and that unpacking undoes
packing. -/

namespace Sys2Proof.Machine

/-! ## Arrays -/

@[simp] theorem subst_getElem {m : Nat} (T : Byte → Byte) (a : Bytes m) (n i : Nat) (h : i < m) :
    (subst T a n)[i] = if i < n then T a[i] else a[i] := by
  simp [subst]

@[simp] theorem low8_getElem (s : State) (i : Nat) (h : i < 8) : (low8 s)[i] = s.wb[i] := by
  simp [low8]

theorem deversify_getElem (sk : Bytes 16) (sn : List Byte) (h : sn.length ≤ Config.divMax) (i : Nat)
    (hi : i < 16) :
    (deversify sk sn h)[i] = if hl : i < sn.length then sk[i] ^^^ sn[i] else sk[i] := by
  simp only [deversify, Bytes.getElem_gen]
  split <;> rename_i hx
  · obtain ⟨hl, rfl⟩ := List.getElem?_eq_some_iff.mp hx
    simp [hl]
  · simp [List.getElem?_eq_none_iff.mp hx]

theorem serial_length (s : State) : (serial s).length = min s.snlen.toNat 10 := by
  simp [serial]

theorem serial_getElem (s : State) (i : Nat) (h : i < (serial s).length) :
    (serial s)[i] = s.sn[i]'(by rw [serial_length] at h; omega) := by
  simp [serial]

/-- The diversified key byte by byte (R91). -/
theorem diversifiedKey_getElem (s : State) (i : Nat) (hi : i < 16) :
    (diversifiedKey s)[i] =
      if h : i < s.snlen.toNat ∧ i < 10 then s.sk[i] ^^^ s.sn[i] else s.sk[i] := by
  rw [diversifiedKey, deversify_getElem]
  by_cases h : i < s.snlen.toNat ∧ i < 10
  · have hl : i < (serial s).length := by rw [serial_length]; omega
    rw [dif_pos hl, dif_pos h, serial_getElem]
  · have hl : ¬ i < (serial s).length := by rw [serial_length]; omega
    rw [dif_neg hl, dif_neg h]

theorem serialSlot_getElem (sn : List Byte) (i : Nat) (hi : i < 4) :
    (serialSlot sn)[i] = if h : i < sn.length then sn[i] else 0x00 := by
  simp only [serialSlot, Bytes.getElem_gen]
  split
  · next h => simp [h]
  · next h => simp [List.getElem?_eq_none_iff.mpr (Nat.le_of_not_lt h)]

/-! ## Masks and shifts as fields of a word -/

/-- An 8-bit field below bit `lo + 8` of a word, by a mask and a shift. -/
theorem mask_shift_eq_field (v m : Word) (lo : Nat)
    (hm : ∀ i < 8, m.getLsbD (lo + i) = true) :
    ((v &&& m) >>> lo).setWidth 8 = v.extractLsb' lo 8 := by
  ext i hi
  simp [hm i hi]

/-- An 8-bit field of a word, by a shift and a mask. -/
theorem shift_mask_eq_field (v : Word) (lo : Nat) : ((v >>> lo) &&& 0xFF).setWidth 8 = v.extractLsb' lo 8 := by
  have ones : ∀ j : Fin 8, (255#8)[j] = true := by decide
  ext i hi
  simp [show (255#8)[i] = true from ones ⟨i, hi⟩]

/-! ## The 8-byte layout, bit by bit (R100) -/

section Pack8
variable (rc fc cn il : Word)

theorem pack8_0 : (pack8 rc fc cn il)[0] = cn.extractLsb' 16 8 :=
  mask_shift_eq_field cn _ 16 (by decide)

theorem pack8_1 : (pack8 rc fc cn il)[1] = fc.extractLsb' 4 8 :=
  mask_shift_eq_field fc _ 4 (by decide)

theorem pack8_2 : (pack8 rc fc cn il)[2] = cn.extractLsb' 3 8 :=
  mask_shift_eq_field cn _ 3 (by decide)

theorem pack8_3_bit (k : Nat) (h : k < 8) : (pack8 rc fc cn il)[3].getLsbD k =
    if k = 0 then false else if k < 5 then rc.getLsbD (k - 1) else cn.getLsbD (k - 5) := by
  simp only [pack8, Vector.getElem_mk, List.getElem_toArray, List.getElem_cons_succ, List.getElem_cons_zero]
  interval_cases k <;> simp

theorem pack8_4_bit (k : Nat) (h : k < 8) : (pack8 rc fc cn il)[4].getLsbD k =
    if k < 5 then cn.getLsbD (k + 11) else false := by
  simp only [pack8, Vector.getElem_mk, List.getElem_toArray, List.getElem_cons_succ, List.getElem_cons_zero]
  interval_cases k <;> simp

theorem pack8_5_bit (k : Nat) (h : k < 8) : (pack8 rc fc cn il)[5].getLsbD k =
    if k < 4 then fc.getLsbD (k + 12) else false := by
  simp only [pack8, Vector.getElem_mk, List.getElem_toArray, List.getElem_cons_succ, List.getElem_cons_zero]
  interval_cases k <;> simp

theorem pack8_6 : (pack8 rc fc cn il)[6] = 0 := rfl

theorem pack8_7_bit (k : Nat) (h : k < 8) : (pack8 rc fc cn il)[7].getLsbD k =
    if k < 4 then il.getLsbD k else fc.getLsbD (k - 4) := by
  simp only [pack8, Vector.getElem_mk, List.getElem_toArray, List.getElem_cons_succ, List.getElem_cons_zero]
  interval_cases k <;> simp

end Pack8

/-! ## The fields of an 8-byte block, bit by bit (R102) -/

section Unpack8
variable (b : Bytes 8)

theorem unpack8_rc_bit (k : Nat) (h : k < 4) : (unpack8 b).rc.getLsbD k = b[3].getLsbD (k + 1) := by
  simp only [unpack8]
  interval_cases k <;> simp

theorem unpack8_fc_bit (k : Nat) (h : k < 16) : (unpack8 b).fc.getLsbD k =
    if k < 4 then b[7].getLsbD (k + 4) else if k < 12 then b[1].getLsbD (k - 4) else b[5].getLsbD (k - 12) := by
  simp only [unpack8]
  interval_cases k <;> simp

theorem unpack8_cn_bit (k : Nat) (h : k < 24) : (unpack8 b).cn.getLsbD k =
    if k < 3 then b[3].getLsbD (k + 5) else if k < 11 then b[2].getLsbD (k - 3)
    else if k < 16 then b[4].getLsbD (k - 11) else b[0].getLsbD (k - 16) := by
  simp only [unpack8]
  interval_cases k <;> simp

theorem unpack8_il_bit (k : Nat) (h : k < 4) : (unpack8 b).il.getLsbD k = b[7].getLsbD k := by
  simp only [unpack8]
  interval_cases k <;> simp

end Unpack8

/-- Fields are equal when each is. -/
theorem fields_ext {f g : Fields} (h1 : f.rc = g.rc) (h2 : f.fc = g.fc) (h3 : f.cn = g.cn) (h4 : f.il = g.il) :
    f = g := by
  cases f; cases g; simp_all

/-- Unpacking undoes packing up to the declared widths (R107). -/
theorem unpack8_pack8 (rc fc cn il : Word) :
    unpack8 (pack8 rc fc cn il) =
      ⟨rc.extractLsb' 0 4, fc.extractLsb' 0 16, cn.extractLsb' 0 24, il.extractLsb' 0 4⟩ := by
  apply fields_ext <;> apply BitVec.eq_of_getLsbD_eq <;> intro k hk
  · rw [unpack8_rc_bit _ k hk, pack8_3_bit _ _ _ _ _ (by omega)]
    simp [hk]
  · rw [unpack8_fc_bit _ k hk]
    split
    · rw [pack8_7_bit _ _ _ _ _ (by omega)]
      simp [hk]
    · split
      · simp [pack8_1, hk, show k - 4 < 8 by omega, show 4 + (k - 4) = k by omega]
      · rw [pack8_5_bit _ _ _ _ _ (by omega)]
        simp [hk, show k - 12 < 4 by omega, show k - 12 + 12 = k by omega]
  · rw [unpack8_cn_bit _ k hk]
    split
    · rw [pack8_3_bit _ _ _ _ _ (by omega)]
      simp [hk]
    · split
      · simp [pack8_2, hk, show k - 3 < 8 by omega, show 3 + (k - 3) = k by omega]
      · split
        · rw [pack8_4_bit _ _ _ _ _ (by omega)]
          simp [hk, show k - 11 < 5 by omega, show k - 11 + 11 = k by omega]
        · simp [pack8_0, hk, show k - 16 < 8 by omega, show 16 + (k - 16) = k by omega]
  · rw [unpack8_il_bit _ k hk, pack8_7_bit _ _ _ _ _ (by omega)]
    simp [hk]

/-! ## The MES layout (R121) -/

section PackMes
variable (rc fc cn il : Word) (slot : Bytes 4)

theorem packMes_0 : (packMes rc fc cn il slot)[0] = 0x01 := rfl

theorem packMes_1 : (packMes rc fc cn il slot)[1] = cn.extractLsb' 16 8 := shift_mask_eq_field cn 16

theorem packMes_2 : (packMes rc fc cn il slot)[2] = cn.extractLsb' 8 8 := shift_mask_eq_field cn 8

theorem packMes_3 : (packMes rc fc cn il slot)[3] = cn.extractLsb' 0 8 := by
  have h := shift_mask_eq_field cn 0
  rwa [BitVec.ushiftRight_zero] at h

theorem packMes_4 : (packMes rc fc cn il slot)[4] = fc.extractLsb' 8 8 := shift_mask_eq_field fc 8

theorem packMes_5 : (packMes rc fc cn il slot)[5] = fc.extractLsb' 0 8 := by
  have h := shift_mask_eq_field fc 0
  rwa [BitVec.ushiftRight_zero] at h

theorem packMes_6_bit (k : Nat) (h : k < 8) : (packMes rc fc cn il slot)[6].getLsbD k =
    if k < 4 then il.getLsbD k else rc.getLsbD (k - 4) := by
  simp only [packMes, Vector.getElem_mk, List.getElem_toArray, List.getElem_cons_succ, List.getElem_cons_zero]
  interval_cases k <;> simp

theorem packMes_slot (i : Nat) (h : i < 4) : (packMes rc fc cn il slot)[10 + i] = slot[i] := by
  interval_cases i <;> rfl

end PackMes

section UnpackMes
variable (p : Bytes 16)

theorem unpackMes_rc : (unpackMes p).rc = p[6].extractLsb' 4 4 := by
  simp only [unpackMes]
  apply BitVec.eq_of_getLsbD_eq
  intro k hk
  interval_cases k <;> simp

theorem unpackMes_fc_bit (k : Nat) (h : k < 16) : (unpackMes p).fc.getLsbD k =
    if k < 8 then p[5].getLsbD k else p[4].getLsbD (k - 8) := by
  simp only [unpackMes]
  interval_cases k <;> simp

theorem unpackMes_cn_bit (k : Nat) (h : k < 24) : (unpackMes p).cn.getLsbD k =
    if k < 8 then p[3].getLsbD k else if k < 16 then p[2].getLsbD (k - 8) else p[1].getLsbD (k - 16) := by
  simp only [unpackMes]
  interval_cases k <;> simp

theorem unpackMes_il : (unpackMes p).il = p[6].extractLsb' 0 4 := by
  simp only [unpackMes]
  apply BitVec.eq_of_getLsbD_eq
  intro k hk
  interval_cases k <;> simp

theorem trailerOf_bit (k : Nat) (h : k < 16) : (trailerOf p).getLsbD k =
    if k < 8 then p[15].getLsbD k else p[14].getLsbD (k - 8) := by
  simp only [trailerOf]
  interval_cases k <;> simp

end UnpackMes

@[simp] theorem trailerOf_packMes (rc fc cn il : Word) (slot : Bytes 4) :
    trailerOf (packMes rc fc cn il slot) = 0x0748 := by
  simp [trailerOf, packMes]

/-- MES unpacking undoes packing up to the declared widths (R132). -/
theorem unpackMes_packMes (rc fc cn il : Word) (slot : Bytes 4) :
    unpackMes (packMes rc fc cn il slot) =
      ⟨rc.extractLsb' 0 4, fc.extractLsb' 0 16, cn.extractLsb' 0 24, il.extractLsb' 0 4⟩ := by
  apply fields_ext <;> apply BitVec.eq_of_getLsbD_eq <;> intro k hk
  · rw [unpackMes_rc]
    simp [hk, packMes_6_bit rc fc cn il slot (4 + k) (by omega)]
  · rw [unpackMes_fc_bit _ k hk]
    split
    · simp [packMes_5, hk, show k < 8 by omega]
    · simp [packMes_4, hk, show k - 8 < 8 by omega, show 8 + (k - 8) = k by omega]
  · rw [unpackMes_cn_bit _ k hk]
    split
    · simp [packMes_3, hk, show k < 8 by omega]
    · split
      · simp [packMes_2, hk, show k - 8 < 8 by omega, show 8 + (k - 8) = k by omega]
      · simp [packMes_1, hk, show k - 16 < 8 by omega, show 16 + (k - 16) = k by omega]
  · rw [unpackMes_il]
    simp [hk, packMes_6_bit rc fc cn il slot k (by omega)]

end Sys2Proof.Machine
end

