-- ==== Sys2Proof/Laws/Status.lean ====
section
/-! SUPPORT. The fields of the status words the outcomes of a command leave (spec rule R161). -/

namespace Sys2Proof.Machine

/-- The bits of a status word are the ones it was made of. -/
theorem statusWord_fields (code : BitVec 4) (warn : Bool) (vf : Violations) :
    codeOf (statusWord code warn vf) = code ∧ warnOf (statusWord code warn vf) = warn ∧
      violationsOf (statusWord code warn vf) = vf ∧ reservedClear (statusWord code warn vf) = true := by
  obtain ⟨a, b, c, d⟩ := vf
  revert code warn a b c d
  decide

@[simp] theorem codeOf_statusError (e : ErrorKind) (vf : Violations) : codeOf (statusError e vf) = e.code :=
  (statusWord_fields _ _ _).1

@[simp] theorem violationsOf_statusError (e : ErrorKind) (vf : Violations) :
    violationsOf (statusError e vf) = vf :=
  (statusWord_fields _ _ _).2.2.1

theorem code_ne_zero (e : ErrorKind) : e.code ≠ 0 := by cases e <;> decide

theorem code_injective {e e' : ErrorKind} (h : e.code = e'.code) : e = e' := by
  cases e <;> cases e' <;> first | rfl | (exact absurd h (by decide))

/-- The status of an error other than `ERR_RANGE` is its code. -/
theorem statusError_none (e : ErrorKind) : statusError e .none = e.code.setWidth 32 := by
  cases e <;> rfl

theorem statusLegal_zero : StatusLegal 0 := by decide

theorem statusLegal_warn : StatusLegal 0x10 := by decide

theorem statusLegal_error {e : ErrorKind} (h : e ≠ .range) : StatusLegal (statusError e .none) := by
  cases e <;> first | (exact absurd rfl h) | decide

theorem statusLegal_range {vf : Violations} (h : vf.ok = false) : StatusLegal (statusError .range vf) := by
  obtain ⟨a, b, c, d⟩ := vf
  revert a b c d
  decide

theorem ok_iff_none (vf : Violations) : vf.ok = true ↔ vf = .none := by
  obtain ⟨a, b, c, d⟩ := vf
  revert a b c d
  decide

end Sys2Proof.Machine
end

