-- ==== Sys2Proof/Laws/Command.lean ====
section
/-! SUPPORT. What a command can do, said once: `exec` is `command` at the chip's parameters, and every command
ends in one of four ways. -/

namespace Sys2Proof.Machine

/-- `exec` never stops, and is `command` at the chip's parameters. -/
theorem exec_eq_command (i : Instr) (s : State) : exec i s = .next (command Config.chip i s) := by
  cases i <;> rfl

/-- `i` decodes an MES block, given the MES flag (R19, R161). -/
def decodesMes (um : BitVec 1) (i : Instr) : Prop :=
  i = .unpkm ∨ i = .decm ∨ (i = .dec ∧ um ≠ 0)

/-- `t` differs from `s` at most in the registers a command may write: the fields, `WB` and `DK`. -/
structure KeepsOperands (s t : State) : Prop where
  um : t.um = s.um
  snlen : t.snlen = s.snlen
  sn : t.sn = s.sn
  sk : t.sk = s.sk
  status : t.status = s.status
  events : t.events = s.events
  inputs : t.inputs = s.inputs
  responses : t.responses = s.responses

theorem KeepsOperands.refl (s : State) : KeepsOperands s s := ⟨rfl, rfl, rfl, rfl, rfl, rfl, rfl, rfl⟩

/-- The four ways a command ends (R160, R161): complete, complete with the trailer warning, fail validation,
raise another error. `t` holds the registers written. -/
inductive Ends (i : Instr) (s : State) : State → Prop where
  | completes (t : State) (h : KeepsOperands s t) : Ends i s (complete t)
  | warns (t : State) (x : BitVec 16) (h : KeepsOperands s t) (hi : decodesMes s.um i) (hx : x ≠ 0x0748) :
      Ends i s (completeWarn x t)
  | failsRange (hi : i = .valid) (h : (isValid s.rc s.fc s.cn s.il).ok = false) :
      Ends i s (raiseWith .range (isValid s.rc s.fc s.cn s.il) s)
  | raises (e : ErrorKind) (h : e ≠ .range) : Ends i s (raise e s)

theorem substituteWb_ends (i : Instr) (T : Byte → Byte) (n : Nat) (s : State) :
    Ends i s (substituteWb T n s) := by
  unfold substituteWb
  split
  · exact .raises _ (by decide)
  · exact .completes _ ⟨rfl, rfl, rfl, rfl, rfl, rfl, rfl, rfl⟩

theorem finishMes_ends {i : Instr} {s : State} (hi : decodesMes s.um i) (p : Bytes 16) :
    Ends i s (finishMes p s) := by
  unfold finishMes
  split
  · exact .raises _ (by decide)
  · split
    · next h => exact .warns _ _ ⟨rfl, rfl, rfl, rfl, rfl, rfl, rfl, rfl⟩ hi h
    · exact .completes _ ⟨rfl, rfl, rfl, rfl, rfl, rfl, rfl, rfl⟩

theorem encodeLow_ends (i : Instr) (P : Config.Params) (s : State) : Ends i s (encodeLow P s) :=
  .completes _ ⟨rfl, rfl, rfl, rfl, rfl, rfl, rfl, rfl⟩

theorem decodeLow_ends (i : Instr) (P : Config.Params) (s : State) : Ends i s (decodeLow P s) :=
  .completes _ ⟨rfl, rfl, rfl, rfl, rfl, rfl, rfl, rfl⟩

theorem encodeMes_ends (i : Instr) (P : Config.Params) (s : State) : Ends i s (encodeMes P s) := by
  unfold encodeMes
  split
  · exact .raises _ (by decide)
  · split
    · exact .raises _ (by decide)
    · exact .completes _ ⟨rfl, rfl, rfl, rfl, rfl, rfl, rfl, rfl⟩

theorem decodeMes_ends {i : Instr} {s : State} (hi : decodesMes s.um i) (P : Config.Params) :
    Ends i s (decodeMes P s) := by
  unfold decodeMes
  split
  · exact .raises _ (by decide)
  · split
    · exact .raises _ (by decide)
    · exact finishMes_ends hi _

/-- Every command ends in one of the four ways. -/
theorem command_ends (P : Config.Params) (i : Instr) (s : State) : Ends i s (command P i s) := by
  cases i with
  | valid =>
    simp only [command, validate]
    split
    · exact .completes s (.refl s)
    · next h => exact .failsRange rfl (by simpa using h)
  | scr n => exact substituteWb_ends _ _ _ _
  | dscr n => exact substituteWb_ends _ _ _ _
  | div =>
    simp only [command, div]
    split
    · exact .raises _ (by decide)
    · exact .completes _ ⟨rfl, rfl, rfl, rfl, rfl, rfl, rfl, rfl⟩
  | pack8 => exact .completes _ ⟨rfl, rfl, rfl, rfl, rfl, rfl, rfl, rfl⟩
  | unpk8 => exact .completes _ ⟨rfl, rfl, rfl, rfl, rfl, rfl, rfl, rfl⟩
  | enc8 => exact encodeLow_ends _ _ _
  | dec8 => exact decodeLow_ends _ _ _
  | packm =>
    simp only [command, packMesCmd]
    split
    · exact .raises _ (by decide)
    · exact .completes _ ⟨rfl, rfl, rfl, rfl, rfl, rfl, rfl, rfl⟩
  | unpkm => exact finishMes_ends (.inl rfl) _
  | encm => exact encodeMes_ends _ _ _
  | decm => exact decodeMes_ends (.inr (.inl rfl)) _
  | enc =>
    simp only [command, encodeByFlag]
    split
    · exact encodeLow_ends _ _ _
    · exact encodeMes_ends _ _ _
  | dec =>
    simp only [command, decodeByFlag]
    split
    · exact decodeLow_ends _ _ _
    · next h => exact decodeMes_ends (.inr (.inr ⟨rfl, h⟩)) _

/-- No command touches the operands the host supplies, nor the port. -/
theorem command_keeps (P : Config.Params) (i : Instr) (s : State) :
    (command P i s).um = s.um ∧ (command P i s).snlen = s.snlen ∧ (command P i s).sn = s.sn ∧
    (command P i s).sk = s.sk ∧ (command P i s).inputs = s.inputs ∧
    (command P i s).responses = s.responses := by
  have he := command_ends P i s
  generalize command P i s = t at he
  cases he with
  | completes t h => simp [h.um, h.snlen, h.sn, h.sk, h.inputs, h.responses]
  | warns t x h => simp [h.um, h.snlen, h.sn, h.sk, h.inputs, h.responses]
  | failsRange => simp
  | raises e => simp

/-! ## Errors before anything is computed -/

theorem substituteWb_of_le {T : Byte → Byte} {n : Nat} {s : State} (h : n ≤ 16) :
    substituteWb T n s = complete (storeBlock (subst T s.wb n) s) := by
  simp [substituteWb, h]

theorem encodeMes_of_le {P : Config.Params} {s : State} (h : s.snlen.toNat ≤ 4) :
    encodeMes P s = match P.aesEnc (diversifiedKey s) (mesPlaintext s) with
      | .keyErr => raise .keySetup s
      | .block c => complete (storeBlock c s) := by
  unfold encodeMes
  exact if_neg (Nat.not_lt.mpr h)

theorem decodeMes_of_le {P : Config.Params} {s : State} (h : s.snlen.toNat ≤ 4) :
    decodeMes P s = match P.aesDec (diversifiedKey s) s.wb with
      | .keyErr => raise .keySetup s
      | .block p => finishMes p s := by
  unfold decodeMes
  exact if_neg (Nat.not_lt.mpr h)

end Sys2Proof.Machine
end

