-- ==== Sys2Proof/Laws/Formulas.lean ====
section
/-! SUPPORT. The 8-byte codec against the formulas of the spec on numbers (rules R101, R102): no bit is lost where
the model computes on 32 bits and narrows. -/

namespace Sys2Proof.Machine

/-- A masked number is below the power of two the mask ends at. -/
theorem and_lt_of_mask_lt (v m k : Nat) (h : m < k) : v &&& m < k := Nat.lt_of_le_of_lt Nat.and_le_right h

/-- A shift to the left stays below the power of two that has room for it. -/
theorem shiftLeft_lt_two_pow {a n k : Nat} (m : Nat) (h : a < 2 ^ m) (hk : m + n ≤ k) : a <<< n < 2 ^ k := by
  rw [Nat.shiftLeft_eq]
  calc a * 2 ^ n < 2 ^ m * 2 ^ n := Nat.mul_lt_mul_of_pos_right h (Nat.two_pow_pos n)
    _ = 2 ^ (m + n) := (Nat.pow_add ..).symm
    _ ≤ 2 ^ k := Nat.pow_le_pow_right (by decide) hk

/-- A shift to the right brings a number below a smaller power of two. -/
theorem shiftRight_lt_two_pow {a n m : Nat} (k : Nat) (h : a < 2 ^ m) (hk : m ≤ k + n) : a >>> n < 2 ^ k := by
  rw [Nat.shiftRight_eq_div_pow, Nat.div_lt_iff_lt_mul (Nat.two_pow_pos n), ← Nat.pow_add]
  exact Nat.lt_of_lt_of_le h (Nat.pow_le_pow_right (by decide) hk)

/-- Packing computes the encode formulas on numbers (R101). -/
theorem pack8_formulas (rc fc cn il : Word) :
    Packs8 rc.toNat fc.toNat cn.toNat il.toNat (pack8 rc fc cn il) := by
  have a0 := shiftRight_lt_two_pow (n := 16) 8 (and_lt_of_mask_lt cn.toNat 0xFFFFFF (2 ^ 24) (by decide)) (by decide)
  have a1 := shiftRight_lt_two_pow (n := 4) 8 (and_lt_of_mask_lt fc.toNat 0xFFF (2 ^ 12) (by decide)) (by decide)
  have a2 := shiftRight_lt_two_pow (n := 3) 8 (and_lt_of_mask_lt cn.toNat 0x7FF (2 ^ 11) (by decide)) (by decide)
  have a3 := Nat.or_lt_two_pow
    (shiftLeft_lt_two_pow (n := 5) (k := 8) 3 (and_lt_of_mask_lt cn.toNat 0x7 (2 ^ 3) (by decide)) (by decide))
    (shiftLeft_lt_two_pow (n := 1) (k := 8) 4 (and_lt_of_mask_lt rc.toNat 0xF (2 ^ 4) (by decide)) (by decide))
  have a4 := shiftRight_lt_two_pow (n := 11) 8 (and_lt_of_mask_lt cn.toNat 0xFFFF (2 ^ 16) (by decide)) (by decide)
  have a5 := shiftRight_lt_two_pow (n := 12) 8 (and_lt_of_mask_lt fc.toNat 0xFFFF (2 ^ 16) (by decide)) (by decide)
  have a7 := Nat.or_lt_two_pow
    (shiftLeft_lt_two_pow (n := 4) (k := 8) 4 (and_lt_of_mask_lt fc.toNat 0xF (2 ^ 4) (by decide)) (by decide))
    (and_lt_of_mask_lt il.toNat 0xF (2 ^ 8) (by decide))
  have b3 := shiftLeft_lt_two_pow (n := 5) (k := 32) 3 (and_lt_of_mask_lt cn.toNat 0x7 (2 ^ 3) (by decide)) (by decide)
  have c3 := shiftLeft_lt_two_pow (n := 1) (k := 32) 4 (and_lt_of_mask_lt rc.toNat 0xF (2 ^ 4) (by decide)) (by decide)
  have b7 := shiftLeft_lt_two_pow (n := 4) (k := 32) 4 (and_lt_of_mask_lt fc.toNat 0xF (2 ^ 4) (by decide)) (by decide)
  refine ⟨?_, ?_, ?_, ?_, ?_, ?_, rfl, ?_⟩ <;>
    simp only [pack8, Vector.getElem_mk, List.getElem_toArray, List.getElem_cons_succ, List.getElem_cons_zero,
      BitVec.toNat_setWidth, BitVec.toNat_ushiftRight, BitVec.toNat_and, BitVec.toNat_or,
      BitVec.toNat_shiftLeft]
  · exact Nat.mod_eq_of_lt a0
  · exact Nat.mod_eq_of_lt a1
  · exact Nat.mod_eq_of_lt a2
  · exact (congrArg (· % 2 ^ 8) (congrArg₂ (· ||| ·) (Nat.mod_eq_of_lt b3) (Nat.mod_eq_of_lt c3))).trans
      (Nat.mod_eq_of_lt a3)
  · exact Nat.mod_eq_of_lt a4
  · exact Nat.mod_eq_of_lt a5
  · exact (congrArg (· % 2 ^ 8) (congrArg (· ||| _) (Nat.mod_eq_of_lt b7))).trans (Nat.mod_eq_of_lt a7)

/-- Narrowing loses nothing of a number that fits. -/
theorem mod_two_pow_of_lt {x n : Nat} (k : Nat) (h : x < 2 ^ k) (hk : k ≤ n) : x % 2 ^ n = x :=
  Nat.mod_eq_of_lt (Nat.lt_of_lt_of_le h (Nat.pow_le_pow_right (by decide) hk))

/-! ## The decode formulas, one by one -/

theorem unpack8_rc_number (b3 : Byte) :
    ((((b3.setWidth 32 &&& 0x1E : Word) >>> 1).setWidth 4).setWidth 32).toNat = (b3.toNat &&& 0x1E) >>> 1 := by
  have g := shiftRight_lt_two_pow (n := 1) 4 (and_lt_of_mask_lt b3.toNat 0x1E (2 ^ 5) (by decide)) (by decide)
  simp only [BitVec.toNat_setWidth, BitVec.toNat_ushiftRight, BitVec.toNat_and, BitVec.ofNat_eq_ofNat,
    BitVec.toNat_ofNat]
  rw [Nat.mod_eq_of_lt (show 30 < 2 ^ 32 by decide), mod_two_pow_of_lt 8 b3.isLt (by decide),
    mod_two_pow_of_lt 4 g (by decide), mod_two_pow_of_lt 4 g (by decide)]

theorem unpack8_il_number (b7 : Byte) :
    (((b7.setWidth 32 &&& 0x0F : Word).setWidth 4).setWidth 32).toNat = b7.toNat &&& 0x0F := by
  have g := and_lt_of_mask_lt b7.toNat 0x0F (2 ^ 4) (by decide)
  simp only [BitVec.toNat_setWidth, BitVec.toNat_and, BitVec.ofNat_eq_ofNat, BitVec.toNat_ofNat]
  rw [Nat.mod_eq_of_lt (show 15 < 2 ^ 32 by decide), mod_two_pow_of_lt 8 b7.isLt (by decide),
    mod_two_pow_of_lt 4 g (by decide), mod_two_pow_of_lt 4 g (by decide)]

theorem unpack8_fc_number (b5 b1 b7 : Byte) :
    (((((b5.setWidth 32 &&& 0x0F : Word) <<< 12) ||| ((b1.setWidth 32 : Word) <<< 4) |||
      (((b7.setWidth 32 : Word) >>> 4) &&& 0x0F)).setWidth 16).setWidth 32).toNat =
    (b5.toNat &&& 0x0F) <<< 12 ||| b1.toNat <<< 4 ||| b7.toNat >>> 4 &&& 0x0F := by
  have g1 := shiftLeft_lt_two_pow (n := 4) (k := 16) 8 b1.isLt (by decide)
  have g5 := shiftLeft_lt_two_pow (n := 12) (k := 16) 4
    (and_lt_of_mask_lt b5.toNat 0x0F (2 ^ 4) (by decide)) (by decide)
  have g7 := and_lt_of_mask_lt (b7.toNat >>> 4) 0x0F (2 ^ 16) (by decide)
  have g := Nat.or_lt_two_pow (Nat.or_lt_two_pow g5 g1) g7
  simp only [BitVec.toNat_setWidth, BitVec.toNat_ushiftRight, BitVec.toNat_and, BitVec.toNat_or,
    BitVec.toNat_shiftLeft, BitVec.ofNat_eq_ofNat, BitVec.toNat_ofNat]
  rw [Nat.mod_eq_of_lt (show 15 < 2 ^ 32 by decide), mod_two_pow_of_lt 8 b7.isLt (by decide),
    mod_two_pow_of_lt 8 b5.isLt (by decide), mod_two_pow_of_lt 8 b1.isLt (by decide),
    mod_two_pow_of_lt 16 g1 (by decide), mod_two_pow_of_lt 16 g5 (by decide),
    mod_two_pow_of_lt 16 g (by decide), mod_two_pow_of_lt 16 g (by decide)]

theorem unpack8_cn_number (b0 b4 b2 b3 : Byte) :
    (((((b0.setWidth 32 : Word) <<< 16) ||| ((b4.setWidth 32 &&& 0x1F : Word) <<< 11) |||
      ((b2.setWidth 32 : Word) <<< 3) ||| ((b3.setWidth 32 &&& 0xE0 : Word) >>> 5)).setWidth 24).setWidth 32).toNat =
    b0.toNat <<< 16 ||| (b4.toNat &&& 0x1F) <<< 11 ||| b2.toNat <<< 3 ||| (b3.toNat &&& 0xE0) >>> 5 := by
  have g0 := shiftLeft_lt_two_pow (n := 16) (k := 24) 8 b0.isLt (by decide)
  have g2 := shiftLeft_lt_two_pow (n := 3) (k := 24) 8 b2.isLt (by decide)
  have g4 := shiftLeft_lt_two_pow (n := 11) (k := 24) 5
    (and_lt_of_mask_lt b4.toNat 0x1F (2 ^ 5) (by decide)) (by decide)
  have g3 := shiftRight_lt_two_pow (n := 5) 24
    (and_lt_of_mask_lt b3.toNat 0xE0 (2 ^ 8) (by decide)) (by decide)
  have g := Nat.or_lt_two_pow (Nat.or_lt_two_pow (Nat.or_lt_two_pow g0 g4) g2) g3
  simp only [BitVec.toNat_setWidth, BitVec.toNat_ushiftRight, BitVec.toNat_and, BitVec.toNat_or,
    BitVec.toNat_shiftLeft, BitVec.ofNat_eq_ofNat, BitVec.toNat_ofNat]
  rw [Nat.mod_eq_of_lt (show 31 < 2 ^ 32 by decide), Nat.mod_eq_of_lt (show 224 < 2 ^ 32 by decide),
    mod_two_pow_of_lt 8 b0.isLt (by decide), mod_two_pow_of_lt 8 b2.isLt (by decide),
    mod_two_pow_of_lt 8 b3.isLt (by decide), mod_two_pow_of_lt 8 b4.isLt (by decide),
    mod_two_pow_of_lt 24 g0 (by decide), mod_two_pow_of_lt 24 g2 (by decide),
    mod_two_pow_of_lt 24 g4 (by decide), mod_two_pow_of_lt 24 g (by decide),
    mod_two_pow_of_lt 24 g (by decide)]

/-- Extraction computes the decode formulas on numbers (R102). -/
theorem unpack8_formulas (b : Bytes 8) : Unpacks8 b ((unpack8 b).rc.setWidth 32).toNat
    ((unpack8 b).fc.setWidth 32).toNat ((unpack8 b).cn.setWidth 32).toNat ((unpack8 b).il.setWidth 32).toNat :=
  ⟨unpack8_rc_number _, unpack8_fc_number _ _ _, unpack8_cn_number _ _ _ _, unpack8_il_number _⟩

end Sys2Proof.Machine
end

