-- ==== Sys2Proof/Laws/Words.lean ====
section
/-! SUPPORT. The fields of a command word and what the decoder does with them, in small lemmas. -/

namespace Sys2Proof

@[simp] theorem opcField_formatC (opc n : BitVec 8) : opcField (formatC opc n) = opc := by
  ext i hi
  simp [opcField, formatC, hi, show i < 32 by omega]

@[simp] theorem lenField_formatC (opc n : BitVec 8) : lenField (formatC opc n) = n := by
  ext i hi
  simp [lenField, formatC, hi, show 8 + i < 32 by omega]

@[simp] theorem rsvField_formatC (opc n : BitVec 8) : rsvField (formatC opc n) = 0 := by
  ext i hi
  simp [rsvField, formatC, BitVec.getLsbD_of_ge n (16 + i - 8) (by omega),
    BitVec.getLsbD_of_ge opc (16 + i) (by omega)]

/-- A word with `RSV` zero is the word of its `OPC` and `N`. -/
theorem formatC_of_rsv_zero {w : Word} (h : rsvField w = 0) : formatC (opcField w) (lenField w) = w := by
  ext i hi
  by_cases h8 : i < 8
  · simp [formatC, opcField, h8, BitVec.getLsbD_eq_getElem hi]
  · by_cases h16 : i < 16
    · simp [formatC, opcField, lenField, h8, show i - 8 < 8 by omega, show 8 + (i - 8) = i by omega,
        BitVec.getLsbD_eq_getElem hi]
    · have hz : (rsvField w).getLsbD (i - 16) = false := by rw [h]; simp
      have hw : w[i] = false := by
        simpa [rsvField, show i - 16 < 16 by omega, show 16 + (i - 16) = i by omega,
          BitVec.getLsbD_eq_getElem hi] using hz
      simp [formatC, h8, hw, BitVec.getLsbD_of_ge (lenField w) (i - 8) (by omega),
        BitVec.getLsbD_of_ge (opcField w) i (by omega)]

/-- A command word's opcode selects the command, with its length operand. -/
theorem commandOf_opcodeOf (i : Instr) : commandOf (opcodeOf i) (lengthOf i) = some i := by
  cases i <;> rfl

/-- The opcode of the command an opcode selects is that opcode. -/
theorem opcodeOf_of_commandOf {opc : BitVec 8} {n : Nat} {i : Instr} (h : commandOf opc n = some i) :
    opcodeOf i = opc := by
  unfold commandOf at h
  split at h <;> first
    | (cases h; apply BitVec.eq_of_toNat_eq; simp_all [opcodeOf])
    | cases h

/-- A command that uses `N` carries it; the others carry 0. -/
theorem lengthOf_of_commandOf {opc : BitVec 8} {n : Nat} {i : Instr} (h : commandOf opc n = some i) :
    lengthOf i = if usesLength opc then n else 0 := by
  have ho := opcodeOf_of_commandOf h
  subst ho
  cases i <;> simp [commandOf, opcodeOf] at h <;> simp [lengthOf, usesLength, opcodeOf, h]

/-- A number in the range of `N` is the value of its 8-bit field. -/
theorem toNat_ofNat_of_lengthFits {n : Nat} (h : lengthFits n = true) : (BitVec.ofNat 8 n).toNat = n := by
  simp [lengthFits] at h
  simp [Nat.mod_eq_of_lt h]

/-- Everything the decoder accepts: the reserved bits are zero, the opcode selects the command, and a length
stands only where it is used. -/
theorem decode_eq_ok {w : Word} {i : Instr} (h : decode w = .ok i) :
    rsvField w = 0 ∧ commandOf (opcField w) (lenField w).toNat = some i ∧
      (usesLength (opcField w) = false → lenField w = 0) := by
  unfold decode at h
  split at h
  · cases h
  · next hr =>
    split at h
    · cases h
    · next j hj =>
      split at h
      · cases h
      · next hn =>
        cases h
        refine ⟨by simpa using hr, hj, fun hu => ?_⟩
        simp [hu] at hn
        exact hn

end Sys2Proof
end

