-- ==== Sys2Proof/Laws/HostPort.lean ====
section
/-! SUPPORT. The register map address by address, and what one input of the host does. -/

namespace Sys2Proof.Machine

/-! ## The register map (R42) -/

theorem targetOf_sn (i : Fin 10) : targetOf (BitVec.ofNat 8 (0x10 + i.val)) = .reg (.sn i) := by
  revert i; decide

theorem targetOf_sk (i : Fin 16) : targetOf (BitVec.ofNat 8 (0x20 + i.val)) = .reg (.sk i) := by
  revert i; decide

theorem targetOf_wb (i : Fin 16) : targetOf (BitVec.ofNat 8 (0x30 + i.val)) = .reg (.wb i) := by
  revert i; decide

theorem targetOf_dk (i : Fin 16) : targetOf (BitVec.ofNat 8 (0x40 + i.val)) = .reg (.dk i) := by
  revert i; decide

@[simp] theorem targetOf_cmd : targetOf cmdAddress = .cmd := by decide

/-- An address of no register is unmapped (R42). -/
theorem targetOf_unmapped {a : BitVec 8}
    (h : (0x08 ≤ a.toNat ∧ a.toNat ≤ 0x0F) ∨ (0x1A ≤ a.toNat ∧ a.toNat ≤ 0x1F) ∨ 0x50 ≤ a.toNat) :
    targetOf a = .unmapped := by
  revert a; decide

/-! ## A command word -/

/-- What a command word does: its command, or the illegal-command error (R46, R64). -/
theorem runWord_eq (w : Word) (s : State) :
    runWord w s = .next (match decode w with
      | .ok i => command Config.chip i s
      | .error _ => raise .illegalCmd s) := by
  unfold runWord
  split <;> simp_all [exec_eq_command]

/-- A write to `CMD` runs its word and answers without error (R46). -/
theorem takeInput_commandWrite (w : Word) (s : State) :
    takeInput (commandWrite w) s = .next (respond writeDone (match decode w with
      | .ok i => command Config.chip i s
      | .error _ => raise .illegalCmd s)) := by
  simp [takeInput, commandWrite, hostWrite, runWord_eq, answering]

/-! ## One input -/

/-- A host write reaches one register, and no command runs: what it can do to the state. -/
theorem writeReg_keeps {r : Reg} {v : Word} {s t : State} (h : writeReg r v s = some t) :
    t.dk = s.dk ∧ t.status = s.status ∧ t.events = s.events ∧ t.inputs = s.inputs ∧ t.responses = s.responses := by
  cases r <;> simp [writeReg] at h <;> subst h <;> exact ⟨rfl, rfl, rfl, rfl, rfl⟩

/-- The ways one input goes (R44 to R47, R190): a response alone, a register write, a command word, a reset. -/
inductive Takes (x : HostInput) (s : State) : State → Prop where
  | answers (r : Response) (hx : x ≠ .reset) : Takes x s (respond r s)
  | stores (t : State) (r : Reg) (a : BitVec 8) (v : Word) (h : writeReg r v s = some t)
      (ha : targetOf a = .reg r) (hx : x = .transaction ⟨true, a, v⟩) : Takes x s (respond writeDone t)
  | runs (w : Word) (i : Instr) (hw : decode w = .ok i) (hx : x = commandWrite w) :
      Takes x s (respond writeDone (command Config.chip i s))
  | rejects (w : Word) (e : IllegalWord) (hw : decode w = .error e) (hx : x = commandWrite w) :
      Takes x s (respond writeDone (raise .illegalCmd s))
  | resets (hx : x = .reset) : Takes x s (takeReset s)

theorem eq_cmdAddress {a : BitVec 8} (h : targetOf a = .cmd) : a = cmdAddress := by
  revert a; decide

/-- One input always leads to a next state, in one of these ways. -/
theorem takeInput_takes (x : HostInput) (s : State) : ∃ t, takeInput x s = .next t ∧ Takes x s t := by
  cases x with
  | reset => exact ⟨_, rfl, .resets rfl⟩
  | transaction r =>
    obtain ⟨we, a, v⟩ := r
    cases we with
    | false =>
      simp only [takeInput, Bool.false_eq_true, if_false, hostRead]
      split <;> exact ⟨_, rfl, .answers _ (by simp)⟩
    | true =>
      simp only [takeInput, if_true, hostWrite]
      split
      · next ha =>
        split
        · next h => exact ⟨_, rfl, .stores _ _ _ _ h ha rfl⟩
        · exact ⟨_, rfl, .answers _ (by simp)⟩
      · next h =>
        have ha := eq_cmdAddress h
        subst ha
        rw [runWord_eq]
        cases hd : decode v with
        | ok i => exact ⟨_, rfl, .runs v i hd rfl⟩
        | error e => exact ⟨_, rfl, .rejects v e hd rfl⟩
      · exact ⟨_, rfl, .answers _ (by simp)⟩

/-- One step: the block waits, or takes its next input in one of those ways. -/
theorem step_cases (s : State) :
    (s.inputs = [] ∧ step s = .next s) ∨
    ∃ x rest t, s.inputs = x :: rest ∧ step s = .next t ∧ Takes x { s with inputs := rest } t := by
  cases h : s.inputs with
  | nil => exact .inl ⟨rfl, by simp [step, takeNext, h]⟩
  | cons x rest =>
    obtain ⟨t, ht, hk⟩ := takeInput_takes x { s with inputs := rest }
    exact .inr ⟨x, rest, t, rfl, by simp [step, takeNext, h, ht], hk⟩

/-- A step at a command write runs its word on the state with that input taken. -/
theorem step_commandWrite {s : State} {w : Word} {rest : List HostInput}
    (h : s.inputs = commandWrite w :: rest) :
    step s = .next (respond writeDone (match decode w with
      | .ok i => command Config.chip i { s with inputs := rest }
      | .error _ => raise .illegalCmd { s with inputs := rest })) := by
  simp [step, takeNext, h, takeInput_commandWrite]

end Sys2Proof.Machine
end

