-- ==== Sys2Proof/Laws/Layout.lean ====
section
/-! SUPPORT. The codec functions against the layouts of the spec (rules R100, R102, R121, R123), the masks and
bounds of the fields, and what the end of an MES decode does. -/

namespace Sys2Proof.Machine

/-! ## Fields truncated and widened again -/

theorem field4_eq_mask (v : Word) : (v.extractLsb' 0 4).setWidth 32 = v &&& 0xF := by
  apply BitVec.eq_of_toNat_eq
  have := v.isLt
  simp [Nat.and_two_pow_sub_one_eq_mod v.toNat 4]
  omega

theorem field16_eq_mask (v : Word) : (v.extractLsb' 0 16).setWidth 32 = v &&& 0xFFFF := by
  apply BitVec.eq_of_toNat_eq
  have := v.isLt
  simp [Nat.and_two_pow_sub_one_eq_mod v.toNat 16]
  omega

theorem field24_eq_mask (v : Word) : (v.extractLsb' 0 24).setWidth 32 = v &&& 0xFFFFFF := by
  apply BitVec.eq_of_toNat_eq
  have := v.isLt
  simp [Nat.and_two_pow_sub_one_eq_mod v.toNat 24]
  omega

theorem mask4_eq_self (v : Word) (h : v.toNat ≤ 15) : v &&& 0xF = v := by
  apply BitVec.eq_of_toNat_eq
  simp
  rw [Nat.and_two_pow_sub_one_eq_mod v.toNat 4]
  omega

theorem mask16_eq_self (v : Word) (h : v.toNat ≤ 65535) : v &&& 0xFFFF = v := by
  apply BitVec.eq_of_toNat_eq
  simp
  rw [Nat.and_two_pow_sub_one_eq_mod v.toNat 16]
  omega

theorem mask24_eq_self (v : Word) (h : v.toNat ≤ 16777215) : v &&& 0xFFFFFF = v := by
  apply BitVec.eq_of_toNat_eq
  simp
  rw [Nat.and_two_pow_sub_one_eq_mod v.toNat 24]
  omega

/-- A word that a mask leaves alone is at most the mask. -/
theorem toNat_le_of_mask_eq_self {v m : Word} (h : v &&& m = v) : v.toNat ≤ m.toNat := by
  have := congrArg BitVec.toNat h
  simp only [BitVec.toNat_and] at this
  have := @Nat.and_le_right v.toNat m.toNat
  omega

/-! ## The 8-byte layout -/

/-- Packing meets the bit table (R100). -/
theorem pack8_layout (rc fc cn il : Word) : Layout8 rc fc cn il (pack8 rc fc cn il) := by
  refine ⟨pack8_0 .., pack8_1 .., pack8_2 .., ?_, ?_, ?_, ?_, ?_, ?_, ?_, rfl, ?_, ?_⟩
  all_goals try intro k hk
  · rw [pack8_3_bit _ _ _ _ _ (by omega)]; simp [show ¬ 5 + k < 5 by omega]
  · rw [pack8_3_bit _ _ _ _ _ (by omega)]; simp [show 1 + k < 5 by omega]
  · rw [pack8_3_bit _ _ _ _ _ (by omega)]; simp
  · rw [pack8_4_bit _ _ _ _ _ (by omega)]; simp [hk, Nat.add_comm]
  · rw [pack8_4_bit _ _ _ _ _ (by omega)]; simp
  · rw [pack8_5_bit _ _ _ _ _ (by omega)]; simp [hk, Nat.add_comm]
  · rw [pack8_5_bit _ _ _ _ _ (by omega)]; simp
  · rw [pack8_7_bit _ _ _ _ _ (by omega)]; simp
  · rw [pack8_7_bit _ _ _ _ _ (by omega)]; simp [hk]

/-- The low half of `WB` after a command that stored it. -/
theorem low8_complete_storeLow8 (b : Bytes 8) (s : State) : low8 (complete (storeLow8 b s)) = b := by
  ext i hi : 1
  simp [hi]

/-- The low half of `WB` after a substitution of 8 bytes. -/
theorem low8_complete_subst (T : Byte → Byte) (s : State) :
    low8 (complete (storeBlock (subst T s.wb 8) s)) = subst T (low8 s) 8 := by
  ext i hi : 1
  simp [hi]

/-- Inverse substitution of a whole block undoes the forward one (R80). -/
theorem subst_inv_fwd (P : Config.Params) (b : Bytes 8) : subst P.inv (subst P.fwd b 8) 8 = b := by
  ext i hi : 1
  simp [hi, Config.Params.fwd, Config.Params.inv]

/-! ## The MES layout -/

/-- The MES plaintext meets the table, for a serial number that fits (R121, R122). -/
theorem mesPlaintext_layout {s : State} (h : s.snlen.toNat ≤ 4) : LayoutMes s (mesPlaintext s) := by
  refine ⟨packMes_0 .., packMes_1 .., packMes_2 .., packMes_3 .., packMes_4 .., packMes_5 .., ?_, ?_,
    rfl, rfl, rfl, ?_, by simp [mesPlaintext, packMes], by simp [mesPlaintext, packMes]⟩
  · intro k hk
    rw [mesPlaintext, packMes_6_bit _ _ _ _ _ _ (by omega)]
    simp
  · intro k hk
    rw [mesPlaintext, packMes_6_bit _ _ _ _ _ _ (by omega)]
    simp [hk]
  · intro i hi
    rw [mesPlaintext, packMes_slot _ _ _ _ _ _ hi, serialSlot_getElem _ _ hi]
    by_cases hl : i < s.snlen.toNat
    · have : i < (serial s).length := by rw [serial_length]; omega
      simp [this, hl, serial_getElem]
    · have : ¬ i < (serial s).length := by rw [serial_length]; omega
      simp [this, hl]

/-- Extraction gives what the MES plaintext carries, zero-extended (R123). -/
theorem unpackMes_carries (p : Bytes 16) : CarriesMes p ((unpackMes p).rc.setWidth 32)
    ((unpackMes p).fc.setWidth 32) ((unpackMes p).cn.setWidth 32) ((unpackMes p).il.setWidth 32) := by
  refine ⟨?_, ?_, ?_, ?_⟩ <;> intro k
  · rw [unpackMes_rc]
    by_cases hk : k < 4 <;>
      simp [hk, BitVec.getLsbD_setWidth, BitVec.getLsbD_extractLsb', -BitVec.getLsbD_eq_getElem]
    omega
  · by_cases hk : k < 16
    · simp only [BitVec.getLsbD_setWidth, unpackMes_fc_bit p k hk, hk, show k < 32 by omega]
      simp
    · simp [hk, BitVec.getLsbD_of_ge (unpackMes p).fc k (by omega), show ¬ k < 8 by omega]
  · by_cases hk : k < 24
    · simp only [BitVec.getLsbD_setWidth, unpackMes_cn_bit p k hk, hk, show k < 32 by omega]
      simp
    · simp [hk, BitVec.getLsbD_of_ge (unpackMes p).cn k (by omega), show ¬ k < 8 by omega,
        show ¬ k < 16 by omega]
  · rw [unpackMes_il]
    by_cases hk : k < 4 <;>
      simp [hk, BitVec.getLsbD_setWidth, BitVec.getLsbD_extractLsb', -BitVec.getLsbD_eq_getElem]
    omega

/-- The trailing constant found is bytes 14 and 15, big-endian (R123). -/
theorem trailerOf_found (p : Bytes 16) : TrailerFound p (trailerOf p) := by
  constructor <;> apply BitVec.eq_of_getLsbD_eq <;> intro k hk <;>
    rw [BitVec.getLsbD_extractLsb', trailerOf_bit _ _ (by omega)]
  · simp only [hk, show ¬ 8 + k < 8 by omega, if_false, Nat.add_sub_cancel_left]
    simp
  · simp only [hk, if_true, Nat.zero_add]
    simp

/-- The key of the MES commands and of `DIV` is the site key diversified (R90, R127). -/
theorem diversifiedKey_diversifies (s : State) : DiversifiedKey s (diversifiedKey s) := by
  intro i hi
  rw [diversifiedKey_getElem]

/-! ## The end of an MES decode -/

/-- With the marker, the fields are loaded, and the trailing constant decides on the warning (R126). -/
theorem finishMes_marked (p : Bytes 16) (s : State) (h : p[0] = 0x01) :
    finishMes p s = { s with
      rc := (unpackMes p).rc.setWidth 32, fc := (unpackMes p).fc.setWidth 32,
      cn := (unpackMes p).cn.setWidth 32, il := (unpackMes p).il.setWidth 32,
      status := if trailerOf p = 0x0748 then 0 else 0x10,
      events := s.events ++ (if trailerOf p = 0x0748 then [.ok] else [.trailer (trailerOf p), .ok]) } := by
  unfold finishMes
  rw [if_neg (by simpa using h)]
  by_cases ht : trailerOf p = 0x0748
  · rw [if_neg (by simpa using ht), complete_eq]
    simp only [ht, if_true]
    rfl
  · rw [if_pos (by simpa using ht), completeWarn_eq]
    simp only [ht, if_false]
    rfl

/-- Without it, `ERR_MARKER` (R126). -/
theorem finishMes_unmarked (p : Bytes 16) (s : State) (h : p[0] ≠ 0x01) :
    finishMes p s = { s with status := 4, events := s.events ++ [.err .marker] } := by
  unfold finishMes
  rw [if_pos (by simpa using h), raise_eq]
  rfl

/-- The decode of the plaintext of a state's registers leaves the truncated fields, and no warning (R132). -/
theorem finishMes_mesPlaintext (s u : State) :
    let v := finishMes (mesPlaintext s) u
    v.rc = s.rc &&& 0xF ∧ v.fc = s.fc &&& 0xFFFF ∧ v.cn = s.cn &&& 0xFFFFFF ∧ v.il = s.il &&& 0xF ∧
    v.status = 0 := by
  dsimp only
  rw [finishMes_marked (mesPlaintext s) _ (packMes_0 ..)]
  simp only [mesPlaintext, unpackMes_packMes, trailerOf_packMes, if_true]
  exact ⟨field4_eq_mask _, field16_eq_mask _, field24_eq_mask _, field4_eq_mask _, trivial⟩

/-! ## Validation -/

/-- The judgement of R150 as bounds. -/
theorem isValid_ok_iff_inRange (s : State) : (isValid s.rc s.fc s.cn s.il).ok = true ↔ InRange s := by
  simp [isValid, Violations.ok, InRange, BitVec.lt_def]
  omega

/-- The status word of a failed validation, bit by bit (R19, R151). -/
theorem statusError_isValid (s : State) : statusError .range (isValid s.rc s.fc s.cn s.il) =
    1 ||| (if s.rc.toNat > 15 then 0x100 else 0) ||| (if s.fc.toNat > 65535 then 0x200 else 0) |||
      (if s.cn.toNat > 16777215 then 0x400 else 0) ||| (if s.il.toNat > 15 then 0x800 else 0) := by
  simp only [isValid, BitVec.lt_def, gt_iff_lt]
  by_cases h1 : 15 < s.rc.toNat <;> by_cases h2 : 65535 < s.fc.toNat <;>
    by_cases h3 : 16777215 < s.cn.toNat <;> by_cases h4 : 15 < s.il.toNat <;>
    simp [h1, h2, h3, h4] <;> decide

end Sys2Proof.Machine
end

