-- ==== Sys2Proof/Laws/PerInstr.lean ====
section
/-! SUPPORT. Laws stated for each command: the fields of its command word (family `EncodeFields`). -/

namespace Sys2Proof.Laws.EncodeFields

/-- A well-formed command's word has its `OPC`, its length operand in `N`, and `RSV` zero (R60, R61). -/
def Statement (i : Instr) : Prop :=
  wellFormed i = true →
    opcField (encode i) = opcodeOf i ∧ (lenField (encode i)).toNat = lengthOf i ∧ rsvField (encode i) = 0

theorem valid : Statement .valid := by intro _; decide
theorem scr (n : Nat) : Statement (.scr n) := by
  intro h
  exact ⟨by simp [encode], by simpa [encode, lengthOf] using toNat_ofNat_of_lengthFits h, by simp [encode]⟩
theorem dscr (n : Nat) : Statement (.dscr n) := by
  intro h
  exact ⟨by simp [encode], by simpa [encode, lengthOf] using toNat_ofNat_of_lengthFits h, by simp [encode]⟩
theorem div : Statement .div := by intro _; decide
theorem pack8 : Statement .pack8 := by intro _; decide
theorem unpk8 : Statement .unpk8 := by intro _; decide
theorem enc8 : Statement .enc8 := by intro _; decide
theorem dec8 : Statement .dec8 := by intro _; decide
theorem packm : Statement .packm := by intro _; decide
theorem unpkm : Statement .unpkm := by intro _; decide
theorem encm : Statement .encm := by intro _; decide
theorem decm : Statement .decm := by intro _; decide
theorem enc : Statement .enc := by intro _; decide
theorem dec : Statement .dec := by intro _; decide

end Sys2Proof.Laws.EncodeFields
end

