-- ==== Sys2Proof/Tests/Slice0.lean ====
section
/-! SUPPORT. Tests. Expected results are the spec's (`spec/95_test_vectors.md`, `spec/30_encoding.md`), not the
model's own; then a witness for the hypotheses of every statement that has some. -/

namespace Sys2Proof.Tests

open Sys2Proof Sys2Proof.Machine

-- One theorem after another: side by side, the kernel evaluations below want more threads than may be at hand.
set_option Elab.async false

/-! ## Helpers -/

/-- The array of `n` bytes written as one number, index 0 first. -/
def bytes (n v : Nat) : Bytes n := .gen fun i => BitVec.ofNat 8 (v >>> (8 * (n - 1 - i.val)))

/-- `s` with the four fields. -/
def fields (rc fc cn il : Word) (s : State := State.reset) : State :=
  { s with rc := rc, fc := fc, cn := cn, il := il }

/-- The four fields of `s`. -/
def fieldsOf (s : State) : Word × Word × Word × Word := (s.rc, s.fc, s.cn, s.il)

/-- The reset state with the block `v` in `WB`. -/
def withWb (v : Nat) (s : State := State.reset) : State := { s with wb := bytes 16 v }

/-- `s` with a serial number of length `n`, given as the ten bytes of `SN`. -/
def withSerial (n : BitVec 8) (v : Nat) (s : State) : State := { s with snlen := n, sn := bytes 10 v }

/-- `s` with the site key `v`. -/
def withKey (v : Nat) (s : State) : State := { s with sk := bytes 16 v }

/-- The state an outcome goes on to. -/
def after (o : Host.Outcome State Fault Refusal) : Option State :=
  match o with
  | .next t => some t
  | .fault _ => none
  | .refused _ => none

/-- The reset state with the host's inputs to come. -/
def issuing (xs : List HostInput) : State := { State.reset with inputs := xs }

/-- A read of `a`, and a write of `v` to `a`. -/
def rd (a : BitVec 8) : HostInput := .transaction ⟨false, a, 0⟩
def wr (a : BitVec 8) (v : Word) : HostInput := .transaction ⟨true, a, v⟩

/-- The state after `k` steps. -/
def steps : Nat → State → Option State
  | 0, s => some s
  | k + 1, s => (after (step s)).bind (steps k)

/-- `SBOX_TEST` (spec D31). -/
def testSbox : Equiv.Perm Byte where
  toFun v := v + 0x3B
  invFun v := v - 0x3B
  left_inv v := by simp
  right_inv v := by simp

/-- Exclusive-or of a block with the key: a port that meets `AES_INVERSE` and costs nothing. -/
def xorBlock (k b : Bytes 16) : Config.PortAnswer := .block (.gen fun i => b[i] ^^^ k[i])

/-- The test table and the exclusive-or port. -/
def xorParams : Config.Params := ⟨testSbox, xorBlock, xorBlock⟩

/-- The test table and AES-128. -/
def fipsParams : Config.Params :=
  ⟨testSbox, fun k b => .block (Config.aes128Enc k b), fun k b => .block (Config.aes128Dec k b)⟩

/-- The test table and a port that rejects every key. -/
def rejectParams : Config.Params := ⟨testSbox, fun _ _ => .keyErr, fun _ _ => .keyErr⟩

/-! ## Well-formedness -/

theorem test_wellFormed_scr : wellFormed (.scr 255) = true ∧ wellFormed (.scr 256) = false := by decide

theorem test_wellFormed_dscr : wellFormed (.dscr 255) = true ∧ wellFormed (.dscr 256) = false := by decide

/-! ## Decoding: words written out from R60 and R62 as `RSV`, `N`, `OPC` -/

theorem test_decode_valid : decode (0#16 ++ 0b00000000#8 ++ 0b00000001#8) = .ok .valid := by decide

theorem test_decode_scr : decode (0#16 ++ 0b00001000#8 ++ 0b00010000#8) = .ok (.scr 8) := by decide

theorem test_decode_dscr : decode (0#16 ++ 0b00000011#8 ++ 0b00010001#8) = .ok (.dscr 3) := by decide

theorem test_decode_div : decode (0#16 ++ 0b00000000#8 ++ 0b00100000#8) = .ok .div := by decide

theorem test_decode_pack8 : decode (0#16 ++ 0b00000000#8 ++ 0b00110000#8) = .ok .pack8 := by decide

theorem test_decode_unpk8 : decode (0#16 ++ 0b00000000#8 ++ 0b00110001#8) = .ok .unpk8 := by decide

theorem test_decode_enc8 : decode (0#16 ++ 0b00000000#8 ++ 0b00110010#8) = .ok .enc8 := by decide

theorem test_decode_dec8 : decode (0#16 ++ 0b00000000#8 ++ 0b00110011#8) = .ok .dec8 := by decide

theorem test_decode_packm : decode (0#16 ++ 0b00000000#8 ++ 0b01000000#8) = .ok .packm := by decide

theorem test_decode_unpkm : decode (0#16 ++ 0b00000000#8 ++ 0b01000001#8) = .ok .unpkm := by decide

theorem test_decode_encm : decode (0#16 ++ 0b00000000#8 ++ 0b01000010#8) = .ok .encm := by decide

theorem test_decode_decm : decode (0#16 ++ 0b00000000#8 ++ 0b01000011#8) = .ok .decm := by decide

theorem test_decode_enc : decode (0#16 ++ 0b00000000#8 ++ 0b01010000#8) = .ok .enc := by decide

theorem test_decode_dec : decode (0#16 ++ 0b00000000#8 ++ 0b01010001#8) = .ok .dec := by decide

/-- Section 2.9: the illegal words. -/
theorem test_decode_illegal_words :
    ([0x00000000, 0x000000FF, 0x00000002, 0x00000034, 0x00000130, 0x00000101, 0x00010030, 0x80000010,
      0x00011110] : List Word).map decode =
    [.error .unknownOpcode, .error .unknownOpcode, .error .unknownOpcode, .error .unknownOpcode,
     .error .lengthNotAllowed, .error .lengthNotAllowed, .error .reservedBits, .error .reservedBits,
     .error .reservedBits] := by decide

/-- A word as the opcode table numbers it. -/
theorem test_decodeTableWord : decodeTableWord 32 0x00001010 = some (.scr 16) ∧
    decodeTableWord 8 0x51 = some .dec ∧ decodeTableWord 32 0x00010030 = none ∧
    decodeTableWord 64 0x100000030 = none := by decide

/-! ## The substitution commands (sections 2.1) -/

theorem test_scr_five : (command xorParams (.scr 5) (withWb 0xC5C4FF3B80AAAAAAAAAAAAAAAAAAAAAA)).wb =
    bytes 16 0x00FF3A76BBAAAAAAAAAAAAAAAAAAAAAA := by decide +kernel

theorem test_scr_length_limit :
    (command xorParams (.scr 16) (withWb 0x000102030405060708090A0B0C0D0E0F)).wb =
      bytes 16 0x3B3C3D3E3F404142434445464748494A ∧
    command xorParams (.scr 17) (withWb 0x00FF) =
      { withWb 0x00FF with status := 7, events := [.err .operand] } := by decide +kernel

theorem test_dscr_two : (command xorParams (.dscr 2) (withWb 0xC5C4FF3B80AAAAAAAAAAAAAAAAAAAAAA)).wb =
    bytes 16 0x8A89FF3B80AAAAAAAAAAAAAAAAAAAAAA := by decide +kernel

theorem test_dscr_length_limit :
    (command xorParams (.dscr 16) (withWb 0x3B3C3D3E3F404142434445464748494A)).wb =
      bytes 16 0x000102030405060708090A0B0C0D0E0F ∧
    (command xorParams (.dscr 255) (withWb 0x00FF)).status = 7 := by decide +kernel

/-! ## DIV (section 2.2) -/

/-- The registers of section 2.2, with `SNLEN` = `n`. -/
def divState (n : BitVec 8) : State :=
  withSerial n 0xFFEEDDCCBBAA99887766 (withKey 0x000102030405060708090A0B0C0D0E0F State.reset)

theorem test_div_lengths :
    (div (divState 10)).dk = bytes 16 0xFFEFDFCFBFAF9F8F7F6F0A0B0C0D0E0F ∧
    (div (divState 5)).dk = bytes 16 0xFFEFDFCFBF05060708090A0B0C0D0E0F ∧
    (div (divState 0)).dk = bytes 16 0x000102030405060708090A0B0C0D0E0F := by decide +kernel

theorem test_div_too_long :
    div { divState 11 with dk := bytes 16 0x55 } =
      { divState 11 with dk := bytes 16 0x55, status := 5, events := [.err .divLen] } ∧
    (div (divState 255)).status = 5 := by decide +kernel

/-! ## The 8-byte codec (section 2.3) -/

theorem test_pack8_rows :
    (packLow (fields 5 0xABCD 0x123456 9)).wb = bytes 16 (0x12BC8ACA060A00D9 * 2 ^ 64) ∧
    (packLow (fields 0x1C 0x11337 0x1F0F00D 0x21 (withWb 0xFF))).wb =
      bytes 16 (0xF03301B81E010071 * 2 ^ 64 + 0xFF) := by decide +kernel

theorem test_pack8_one_field_at_a_time :
    ([(0, 0, 0x7, 0), (0, 0, 0x7F8, 0), (0, 0, 0xF800, 0), (0, 0, 0xFF0000, 0), (0, 0xF, 0, 0),
      (0, 0xFF0, 0, 0), (0, 0xF000, 0, 0), (0xF, 0, 0, 0), (0, 0, 0, 0xF)] : List (Word × Word × Word × Word)).map
      (fun (r, f, c, i) => pack8 r f c i) =
    ([0x000000E000000000, 0x0000FF0000000000, 0x000000001F000000, 0xFF00000000000000, 0x00000000000000F0,
      0x00FF000000000000, 0x00000000000F0000, 0x0000001E00000000, 0x000000000000000F] : List Nat).map
      (bytes 8) := by decide +kernel

theorem test_unpk8_row :
    fieldsOf (unpackLow (withWb (0x123456789ABCDEF0 * 2 ^ 64))) = (0xC, 0xC34F, 0x12D2B3, 0) := by
  decide +kernel

theorem test_unpk8_ignored_bits :
    fieldsOf (unpackLow (fields 9 9 9 9 (withWb (0x00000001E0F0FF00 * 2 ^ 64)))) = (0, 0, 0, 0) := by
  decide +kernel

theorem test_enc8_row : (command xorParams .enc8 (fields 12 0x1337 0xF00D 1 (withWb 0x99))).wb =
    bytes 16 (0x3B6E3CF3593C3BAC * 2 ^ 64 + 0x99) := by decide +kernel

theorem test_dec8_row :
    let t := command xorParams .dec8 (withWb (0x3B6E3CF3593C3BAC * 2 ^ 64 + 0x99))
    fieldsOf t = (12, 0x1337, 0xF00D, 1) ∧ t.wb = bytes 16 (0x003301B81E010071 * 2 ^ 64 + 0x99) := by
  decide +kernel

/-! ## The MES codec (sections 2.4, 2.5, 2.6) -/

theorem test_packm_stale_serial :
    (packMesCmd (withSerial 2 0x3C5451E3999900000000 (fields 1 2 3 4))).wb =
      bytes 16 0x010000030002140000003C5400000748 ∧
    (packMesCmd (withSerial 4 0x3C5451E3000000000000 (fields 0x1C 0x11337 0x1F0F00D 0x21))).wb =
      bytes 16 0x01F0F00D1337C10000003C5451E30748 := by decide +kernel

theorem test_packm_serial_too_long : packMesCmd (withSerial 5 0 (fields 1 2 3 4)) =
    { withSerial 5 0 (fields 1 2 3 4) with status := 2, events := [.err .serialLen] } := by decide +kernel

theorem test_unpkm_warns :
    let s := withSerial 255 0 (withWb 0x01030405010234ABCDEF090909091234)
    unpackMesCmd s = { fields 3 0x0102 0x030405 4 s with
      status := 0x10, events := [.trailer 0x1234, .ok] } := by decide +kernel

theorem test_unpkm_marker :
    let s := fields 9 9 9 9 (withWb 0x02030405010234ABCDEF090909091234)
    unpackMesCmd s = { s with status := 4, events := [.err .marker] } := by decide +kernel

/-- Section 2.5, fourth row: a serial number of two bytes. -/
theorem test_encm_fips197 :
    (command fipsParams .encm (withSerial 2 0x04A10000000000000000
      (withKey 0x000102030405060708090A0B0C0D0E0F (fields 5 0xABCD 0x123456 9)))).wb =
    bytes 16 0xE54387667984787FD705885FAC88FCA4 := by decide +kernel

theorem test_encm_key_rejected_and_serial_too_long :
    command rejectParams .encm State.reset = { State.reset with status := 3, events := [.err .keySetup] } ∧
    (command rejectParams .encm (withSerial 5 0 State.reset)).status = 2 := by decide +kernel

/-- Section 2.5: a foreign trailing constant. -/
theorem test_decm_fips197_warns :
    let s := withSerial 4 0x01020304000000000000 (withKey 0x000102030405060708090A0B0C0D0E0F
      (withWb 0x11A82CC605C818A07E3089ECC9B3653A))
    command fipsParams .decm s = { fields 3 0x0102 0x030405 4 s with
      status := 0x10, events := [.trailer 0x1234, .ok] } := by decide +kernel

theorem test_decm_key_rejected_and_marker :
    (command rejectParams .decm State.reset).status = 3 ∧
    command xorParams .decm State.reset = { State.reset with status := 4, events := [.err .marker] } := by
  decide +kernel

/-! ## VALID, ENC, DEC (sections 2.7, 2.8) -/

theorem test_valid_bounds :
    (validate (fields 15 65535 16777215 15)).status = 0 ∧ (validate (fields 16 0 0 0)).status = 0x101 ∧
    (validate (fields 0 65536 0 0)).status = 0x201 ∧ (validate (fields 0 0 16777216 0)).status = 0x401 ∧
    (validate (fields 0 0 0 16)).status = 0x801 := by decide +kernel

theorem test_valid_events :
    (validate (fields 16 65536 5 15)).events = [.field .rc, .field .fc, .err .range] ∧
    (validate (fields 0xFFFFFFFF 0xFFFFFFFF 0xFFFFFFFF 0xFFFFFFFF)).events =
      [.field .rc, .field .fc, .field .cn, .field .il, .err .range] := by decide +kernel

/-- Program 4, step 9: with `UM` = 0, `ENC` writes the low half alone. -/
theorem test_enc_low :
    (command xorParams .enc (fields 5 0xABCD 0x123456 9 (withWb 0xD705885FAC88FCA4))).wb =
      bytes 16 0x4DF7C50541453B14D705885FAC88FCA4 := by decide +kernel

/-- Section 2.6: with `UM` = 1, `ENC` checks the serial length. -/
theorem test_enc_mes :
    (command xorParams .enc (withSerial 5 0 { State.reset with um := 1 })).status = 2 ∧
    (command xorParams .enc (withSerial 5 0 State.reset)).status = 0 := by decide +kernel

/-- Program 4, step 14: a second decode of a plaintext. -/
theorem test_dec_low :
    let t := command xorParams .dec (withWb 0x12BC8ACA060A00D9D705885FAC88FCA4)
    fieldsOf t = (7, 0xF819, 0xD75A7C, 0xE) ∧ t.wb = bytes 16 0xD7814F8FCBCFC59ED705885FAC88FCA4 := by
  decide +kernel

theorem test_dec_mes :
    (command rejectParams .dec { State.reset with um := 1 }).status = 3 ∧
    (command rejectParams .dec State.reset).status = 0 := by decide +kernel

/-! ## The host port, the step and reset (sections 2.9, 2.10) -/

/-- The refused transactions of section 2.9, with `rdata` = 0 on a write too (D6), and the mapped addresses
beside them. -/
theorem test_refused_transactions :
    (∀ a ∈ ([0x07, 0x08, 0x0F, 0x1A, 0x1F, 0x50, 0xFF] : List (BitVec 8)),
      after (step (issuing [rd a])) = some { State.reset with responses := [⟨some 0, true⟩] }) ∧
    (∀ a ∈ ([0x06, 0x40, 0x4F, 0x08, 0x1A, 0x50, 0xFF] : List (BitVec 8)),
      after (step (issuing [wr a 0x55])) = some { State.reset with responses := [⟨some 0, true⟩] }) ∧
    (∀ a ∈ ([0x00, 0x06, 0x10, 0x19, 0x20, 0x2F, 0x30, 0x3F, 0x40, 0x4F] : List (BitVec 8)),
      after (step (issuing [rd a])) = some { State.reset with responses := [⟨some 0, false⟩] }) := by
  decide +kernel

/-- Narrow registers (section 2.9): what a write and a read give. -/
theorem test_narrow_registers :
    ((steps 8 (issuing [wr 0x05 0x1FF, rd 0x05, wr 0x3F 0x1234, rd 0x3F, wr 0x00 0xFFFFFFFF, rd 0x00,
      wr 0x04 2, rd 0x04])).map fun t => t.responses.filterMap (·.rdata)) =
    some [0xFF, 0x34, 0xFFFFFFFF, 0] := by decide +kernel

/-- Program 3, steps 6 and 7: an illegal word, then `RD STATUS`. -/
theorem test_illegal_word_sets_status :
    ((steps 2 (issuing [wr 0x07 0x00010030, rd 0x06])).map fun t => (t.status, t.events, t.responses)) =
    some (6, [.err .illegalCmd], [⟨none, false⟩, ⟨some 6, false⟩]) := by decide +kernel

/-- A word placed for the next step is run by it. -/
theorem test_withFetchWord_runs :
    ((after (step ((fields 1 2 0x20 1).withFetchWord 32 0x30))).map fun t => (t.wb, t.status)) =
      some (bytes 16 (0x0000040200000021 * 2 ^ 64), 0) := by decide +kernel

/-- The reset input. -/
theorem test_reset_input : after (step { fields 1 2 3 4 (withWb 5) with
    status := 7, events := [.ok], inputs := [.reset] }) = some State.reset := by decide +kernel

/-! ## Witnesses: the hypotheses of the statements can be met -/

theorem witness_decodeOfEncoded : wellFormed (.scr 0) = true ∧ wellFormed (.dscr 255) = true := by decide

theorem witness_encodeOfDecoded : decode 0x0000FF11 = .ok (.dscr 255) ∧ decode 0x00000010 = .ok (.scr 0) := by
  decide

theorem witness_decoderTable : ∃ r ∈ opcodeTable, (0x0000FF11 : Word) &&& r.mask = r.pattern ∧
    decode 0x0000FF11 = .ok (.dscr 255) := by decide

theorem witness_illegalWords :
    (issuing [wr 0x07 0x00010030]).inputs = .transaction ⟨true, 0x07, 0x00010030⟩ :: [] ∧
    decode 0x00010030 = .error .reservedBits ∧ decode 0x00000052 = .error .unknownOpcode ∧
    decode 0x00000120 = .error .lengthNotAllowed := by decide

theorem witness_stepAtCommandWrite :
    (issuing [wr 0x07 0x20]).inputs = .transaction ⟨true, 0x07, 0x20⟩ :: [] ∧ decode 0x20 = .ok .div ∧
    (issuing [wr 0x07 0x21]).inputs = .transaction ⟨true, 0x07, 0x21⟩ :: [] ∧
    decode 0x21 = .error .unknownOpcode := by decide

/-- Every clause at the ends of its range. -/
theorem witness_readAnswers : (issuing [rd 0x19]).inputs = .transaction ⟨false, 0x19, 0⟩ :: [] ∧
    (0x10#8).toNat = 0x10 + 0 ∧ (0x19#8).toNat = 0x10 + 9 ∧ (0x20#8).toNat = 0x20 + 0 ∧
    (0x2F#8).toNat = 0x20 + 15 ∧ (0x30#8).toNat = 0x30 + 0 ∧ (0x3F#8).toNat = 0x30 + 15 ∧
    (0x40#8).toNat = 0x40 + 0 ∧ (0x4F#8).toNat = 0x40 + 15 ∧
    (∀ a ∈ [0x07#8, 0x0F, 0x1A, 0x1F, 0x50, 0xFF],
      (0x07 ≤ a.toNat ∧ a.toNat ≤ 0x0F) ∨ (0x1A ≤ a.toNat ∧ a.toNat ≤ 0x1F) ∨ 0x50 ≤ a.toNat) := by decide

theorem witness_writeStores : (issuing [wr 0x3F 0x1234]).inputs = .transaction ⟨true, 0x3F, 0x1234⟩ :: [] ∧
    (0x10#8).toNat = 0x10 + 0 ∧ (0x19#8).toNat = 0x10 + 9 ∧ (0x20#8).toNat = 0x20 + 0 ∧
    (0x2F#8).toNat = 0x20 + 15 ∧ (0x30#8).toNat = 0x30 + 0 ∧ (0x3F#8).toNat = 0x30 + 15 := by decide

theorem witness_refused : (issuing [wr 0x06 1]).inputs = .transaction ⟨true, 0x06, 1⟩ :: [] ∧
    (∀ a ∈ [0x08#8, 0x0F, 0x1A, 0x1F, 0x50, 0xFF],
      (0x08 ≤ a.toNat ∧ a.toNat ≤ 0x0F) ∨ (0x1A ≤ a.toNat ∧ a.toNat ≤ 0x1F) ∨ 0x50 ≤ a.toNat) ∧
    (∀ a ∈ [0x40#8, 0x4F], 0x40 ≤ a.toNat ∧ a.toNat ≤ 0x4F) := by decide

theorem witness_readAfterWrite :
    (issuing [wr 0x3F 1, rd 0x3F]).inputs = .transaction ⟨true, 0x3F, 1⟩ :: .transaction ⟨false, 0x3F, 0⟩ :: [] ∧
    (∀ a ∈ [0x00#8, 0x03], a.toNat ≤ 0x03) ∧
    (∀ a ∈ [0x05#8, 0x10, 0x19, 0x20, 0x3F],
      a = 0x05 ∨ (0x10 ≤ a.toNat ∧ a.toNat ≤ 0x19) ∨ (0x20 ≤ a.toNat ∧ a.toNat ≤ 0x3F)) := by decide

theorem witness_eachInput : (issuing [.reset]).inputs = .reset :: [] ∧
    (issuing [rd 0x00]).inputs = rd 0x00 :: [] ∧ rd 0x00 ≠ .reset := by decide

theorem witness_blockWaits : State.reset.inputs = [] := by decide

theorem witness_resetInput : { fields 1 2 3 4 with inputs := [.reset] }.inputs = .reset :: [] := by decide

/-- A command that ends with `OK`, and one that does not. -/
theorem witness_errorsChange :
    exec .valid State.reset = .next { State.reset with status := 0, events := [.ok] } ∧ codeOf 0 = 0 ∧
    exec .unpkm State.reset = .next { State.reset with status := 4, events := [.err .marker] } ∧
    codeOf 4 ≠ 0 := ⟨rfl, rfl, rfl, by decide⟩

theorem witness_stepsKeepTheInvariants :
    let s := issuing [wr 0x07 0x41]
    let t : State := { State.reset with
      status := 4, events := [.err .marker], responses := [⟨none, false⟩] }
    StatusLegal s.status ∧ StatusAgreesWithEvents s ∧ step s = .next t :=
  ⟨by decide, rfl, rfl⟩

theorem witness_commandsWrite : Reg.dk 0 ≠ .status ∧ writesReg 0 .enc (.dk 0) = false ∧
    writesReg 0 .enc (.wb 8) = false ∧ writesReg 1 .dec (.wb 0) = false := by decide

/-- Two states that differ wherever `PACK8` does not look. -/
theorem witness_commandsRead :
    let s := fields 1 2 3 4
    let s' : State := { fields 1 2 3 4 (withSerial 3 7 (withKey 9 (withWb 5))) with um := 1, status := 6 }
    (∀ r : Reg, readsReg s.um s.snlen .pack8 r = true → readReg r s = readReg r s') ∧
    writesReg s.um .pack8 (.wb 7) = true := by
  refine ⟨?_, by decide⟩
  intro r h
  cases r <;> first | rfl | cases h

theorem witness_serialBytesBeyond : ∀ (j : Nat) (_ : j < 10), j < (divState 9).snlen.toNat →
    (bytes 10 0xFFEEDDCCBBAA99887700)[j] = (divState 9).sn[j] := by decide +kernel

theorem witness_onlyTheHost :
    let s := issuing [wr 0x05 4]
    let t : State := { State.reset with snlen := 4, responses := [⟨none, false⟩] }
    step s = .next t ∧ ¬ (t.um = s.um ∧ t.snlen = s.snlen ∧ t.sn = s.sn ∧ t.sk = s.sk) :=
  ⟨rfl, by decide⟩

theorem witness_onlyDiv :
    let s := { divState 4 with inputs := [wr 0x07 0x20] }
    ∃ t, step s = .next t ∧ t.dk ≠ s.dk :=
  ⟨respond writeDone (div (divState 4)), rfl, by decide +kernel⟩

theorem witness_onlyCommands :
    let s := issuing [wr 0x07 0x41]
    ∃ t, step s = .next t ∧ (t.status ≠ s.status ∨ t.events ≠ s.events) :=
  ⟨respond writeDone (unpackMesCmd State.reset), rfl, by decide⟩

/-- Parameters that differ in the table alone, and parameters that differ in the port alone. -/
theorem witness_tables :
    let P := xorParams
    let Q : Config.Params := ⟨Equiv.refl Byte, xorBlock, xorBlock⟩
    P.aesEnc = Q.aesEnc ∧ P.aesDec = Q.aesDec ∧ P.sbox 0 ≠ Q.sbox 0 ∧ P.sbox = rejectParams.sbox ∧
    P.aesEnc (bytes 16 0) (bytes 16 0) ≠ rejectParams.aesEnc (bytes 16 0) (bytes 16 0) ∧
    (withSerial 5 0 State.reset).snlen.toNat > 4 ∧ State.reset.um = 0 :=
  ⟨rfl, rfl, by decide, rfl, by decide, by decide, by decide⟩

theorem witness_scrAndDscr : (255 : Nat) < 256 ∧ (0 : Nat) ≤ 16 ∧ (16 : Nat) ≤ 16 ∧ (17 : Nat) > 16 := by decide

theorem witness_div : (divState 0).snlen.toNat ≤ 10 ∧ (divState 10).snlen.toNat ≤ 10 ∧
    9 < (divState 10).snlen.toNat ∧ (divState 11).snlen.toNat > 10 := by decide

theorem witness_deversifyLaws : ([0x01, 0x02] : List Byte).length ≤ 16 ∧
    ([0x01, 0x02] : List Byte).length = ([0x01, 0x03] : List Byte).length ∧
    (([0x01, 0x02] : List Byte) ++ List.replicate 14 0x00).length ≤ 16 := by decide

/-- Two states with the same fields and the same packing, and the ends of the ranges. -/
theorem witness_eightByteRoundTrip :
    let s := fields 15 65535 16777215 15
    let s' := fields 15 65535 16777215 15 (withKey 7 State.reset)
    InRange s ∧ InRange s' ∧ s ≠ s' ∧ exec .pack8 s = .next (packLow s) ∧ exec .pack8 s' = .next (packLow s') ∧
    ∀ (i : Nat) (_ : i < 8), (packLow s).wb[i] = (packLow s').wb[i] := by
  refine ⟨by decide, by decide, by decide +kernel, rfl, rfl, ?_⟩
  decide +kernel

theorem witness_mesSerialLengths :
    (withSerial 5 0 { State.reset with um := 1 }).snlen.toNat > 4 ∧
    (withSerial 4 0 { State.reset with um := 1 }).snlen.toNat ≤ 4 ∧ ({ State.reset with um := 1 } : State).um = 1 ∧
    State.reset.snlen.toNat ≤ 4 := by decide

theorem witness_unpkm : (withWb 0x01000000000000000000000000000749).wb[0] = 0x01 ∧ State.reset.wb[0] ≠ 0x01 := by
  decide +kernel

/-- A port that is its own inverse; with it both commands succeed on the reset state. -/
theorem witness_mesRoundTrip :
    xorParams.AesInverse ∧ codeOf (command xorParams .encm State.reset).status = 0 ∧
    codeOf (command xorParams .decm (command xorParams .encm State.reset)).status ≠ ErrorKind.keySetup.code := by
  refine ⟨?_, by decide +kernel, by decide +kernel⟩
  intro k p c q h1 h2
  simp only [xorParams, xorBlock, Config.PortAnswer.block.injEq] at h1 h2
  subst h1 h2
  ext i hi
  simp

theorem witness_fips197 : fipsParams.AesFips197 := fun _ _ => ⟨rfl, rfl⟩

theorem witness_valid : InRange (fields 15 65535 16777215 15) ∧ ¬ InRange (fields 0 0 0 16) := by decide

theorem witness_dispatchFlag : State.reset.um = 0 ∧ ({ State.reset with um := 1 } : State).um = 1 := by decide

end Sys2Proof.Tests
end

section
/-! PROOF. What a command leaves in the registers and what it depends on, one lemma for each shared operation
(spec rules R31 and R160), and the statements of `10_state.md`. -/

namespace Sys2Proof.Machine

/-! ## The branches of VALID, ENC and DEC -/

section Branches
variable {s : State} {P : Config.Params}

theorem validate_of_ok (h : (isValid s.rc s.fc s.cn s.il).ok = true) : validate s = complete s := if_pos h

theorem validate_of_not_ok (h : ¬ (isValid s.rc s.fc s.cn s.il).ok = true) :
    validate s = raiseWith .range (isValid s.rc s.fc s.cn s.il) s :=
  if_neg h

theorem encodeByFlag_low (h : s.um = 0) : encodeByFlag P s = encodeLow P s := if_pos h
theorem encodeByFlag_mes (h : s.um ≠ 0) : encodeByFlag P s = encodeMes P s := if_neg h
theorem decodeByFlag_low (h : s.um = 0) : decodeByFlag P s = decodeLow P s := if_pos h
theorem decodeByFlag_mes (h : s.um ≠ 0) : decodeByFlag P s = decodeMes P s := if_neg h

end Branches

/-! ## The rows of ENC and DEC in the access matrix (R31) -/

theorem writesReg_enc (um : BitVec 1) :
    writesReg um .enc = if um = 0 then Reg.isWbBelow 8 else Reg.isWbBelow 16 :=
  funext fun r => by simp only [writesReg]; split <;> rfl

theorem writesReg_dec (um : BitVec 1) :
    writesReg um .dec = if um = 0 then (fun r => r.isField || r.isWbBelow 8) else Reg.isField :=
  funext fun r => by simp only [writesReg]; split <;> rfl

/-! ## Registers through the shared updates of the state -/

/-- A command ends by writing `STATUS` and appending events: no other register moves (R161, R175). -/
theorem readReg_emit_status {r : Reg} (hr : r ≠ .status) (evs : List Event) (w : Word) (s : State) :
    readReg r (emit evs { s with status := w }) = readReg r s := by
  cases r with
  | status => exact absurd rfl hr
  | _ => rfl

theorem readReg_complete {r : Reg} (hr : r ≠ .status) (s : State) : readReg r (complete s) = readReg r s :=
  readReg_emit_status hr _ _ s

theorem readReg_completeWarn {r : Reg} (hr : r ≠ .status) (x : BitVec 16) (s : State) :
    readReg r (completeWarn x s) = readReg r s :=
  readReg_emit_status hr _ _ s

theorem readReg_raiseWith {r : Reg} (hr : r ≠ .status) (e : ErrorKind) (vf : Violations) (s : State) :
    readReg r (raiseWith e vf s) = readReg r s :=
  readReg_emit_status hr _ _ s

theorem readReg_raise {r : Reg} (hr : r ≠ .status) (e : ErrorKind) (s : State) :
    readReg r (raise e s) = readReg r s :=
  readReg_emit_status hr _ _ s

theorem readReg_loadFields_of_not_isField {r : Reg} (hr : r.isField = false) (f : Fields) (s : State) :
    readReg r (loadFields f s) = readReg r s := by
  cases r with
  | rc | fc | cn | il => cases hr
  | _ => rfl

theorem readReg_loadFields_of_isField {r : Reg} (hr : r.isField = true) (f : Fields) (s s' : State) :
    readReg r (loadFields f s) = readReg r (loadFields f s') := by
  cases r with
  | rc | fc | cn | il => rfl
  | _ => cases hr

/-- A block that is `WB` again from byte `n` on leaves every register but the first `n` bytes of `WB`. -/
theorem readReg_storeBlock_of_not_below {n : Nat} {r : Reg} (hr : r.isWbBelow n = false) {b : Bytes 16}
    {s : State} (hb : ∀ i (_ : i < 16), n ≤ i → b[i] = s.wb[i]) :
    readReg r (storeBlock b s) = readReg r s := by
  cases r with
  | wb i =>
    have hi : n ≤ i.val := by simpa [Reg.isWbBelow] using hr
    simpa [readReg] using congrArg (BitVec.setWidth 32) (hb i.val i.isLt hi)
  | _ => rfl

/-- Of the first `n` bytes of `WB`, blocks that agree there leave the same values. -/
theorem readReg_storeBlock_of_below {n : Nat} {r : Reg} (hr : r.isWbBelow n = true) {b b' : Bytes 16}
    (hb : ∀ i (_ : i < 16), i < n → b[i] = b'[i]) (s s' : State) :
    readReg r (storeBlock b s) = readReg r (storeBlock b' s') := by
  cases r with
  | wb i =>
    have hi : i.val < n := by simpa [Reg.isWbBelow] using hr
    simpa [readReg] using congrArg (BitVec.setWidth 32) (hb i.val i.isLt hi)
  | _ => cases hr

/-- The low 8 bytes are stored as a whole block (R103, R106). -/
theorem storeLow8_eq_storeBlock (b : Bytes 8) (s : State) : storeLow8 b s = storeBlock (storeLow8 b s).wb s := rfl

theorem readReg_storeLow8_of_not_below {r : Reg} (hr : r.isWbBelow 8 = false) (b : Bytes 8) (s : State) :
    readReg r (storeLow8 b s) = readReg r s := by
  rw [storeLow8_eq_storeBlock]
  exact readReg_storeBlock_of_not_below hr fun i _ hi => by simp [Nat.not_lt.mpr hi]

theorem readReg_storeLow8_of_below {r : Reg} (hr : r.isWbBelow 8 = true) (b : Bytes 8) (s s' : State) :
    readReg r (storeLow8 b s) = readReg r (storeLow8 b s') := by
  rw [storeLow8_eq_storeBlock b s, storeLow8_eq_storeBlock b s']
  exact readReg_storeBlock_of_below hr (fun i _ hi => by simp [hi]) s s'

/-! ## The registers an operation keeps (the `w` entries of R31) -/

section Keeps
variable {r : Reg} (hr : r ≠ .status)
include hr

theorem readReg_substituteWb (T : Byte → Byte) (n : Nat) (s : State) (hw : r.isWbBelow n = false) :
    readReg r (substituteWb T n s) = readReg r s := by
  unfold substituteWb
  split
  · exact readReg_raise hr _ s
  · rw [readReg_complete hr]
    exact readReg_storeBlock_of_not_below hw fun i _ hi => by simp [Nat.not_lt.mpr hi]

theorem readReg_encodeLow (P : Config.Params) (s : State) (hw : r.isWbBelow 8 = false) :
    readReg r (encodeLow P s) = readReg r s := by
  rw [encodeLow, readReg_complete hr, readReg_storeLow8_of_not_below hw]

theorem readReg_decodeLow (P : Config.Params) (s : State) (hf : r.isField = false)
    (hw : r.isWbBelow 8 = false) : readReg r (decodeLow P s) = readReg r s := by
  rw [decodeLow, readReg_complete hr, readReg_loadFields_of_not_isField hf, readReg_storeLow8_of_not_below hw]

theorem readReg_finishMes (p : Bytes 16) (s : State) (hf : r.isField = false) :
    readReg r (finishMes p s) = readReg r s := by
  unfold finishMes
  split
  · exact readReg_raise hr _ s
  · split
    · rw [readReg_completeWarn hr, readReg_loadFields_of_not_isField hf]
    · rw [readReg_complete hr, readReg_loadFields_of_not_isField hf]

theorem readReg_complete_storeBlock (b : Bytes 16) (s : State) (hw : r.isWbBelow 16 = false) :
    readReg r (complete (storeBlock b s)) = readReg r s := by
  rw [readReg_complete hr]
  exact readReg_storeBlock_of_not_below hw fun i hi hn => absurd hi (Nat.not_lt.mpr hn)

theorem readReg_encodeMes (P : Config.Params) (s : State) (hw : r.isWbBelow 16 = false) :
    readReg r (encodeMes P s) = readReg r s := by
  unfold encodeMes
  split
  · exact readReg_raise hr _ s
  · split
    · exact readReg_raise hr _ s
    · exact readReg_complete_storeBlock hr _ s hw

theorem readReg_decodeMes (P : Config.Params) (s : State) (hf : r.isField = false) :
    readReg r (decodeMes P s) = readReg r s := by
  unfold decodeMes
  split
  · exact readReg_raise hr _ s
  · split
    · exact readReg_raise hr _ s
    · exact readReg_finishMes hr _ s hf

/-- Every command keeps every register outside its row of the access matrix (R31). -/
theorem readReg_command (P : Config.Params) (i : Instr) (s : State) (hw : writesReg s.um i r = false) :
    readReg r (command P i s) = readReg r s := by
  cases i with
  | valid =>
    simp only [command, validate]
    split
    · exact readReg_complete hr s
    · exact readReg_raiseWith hr _ _ s
  | scr n => exact readReg_substituteWb hr _ n s hw
  | dscr n => exact readReg_substituteWb hr _ n s hw
  | div =>
    simp only [command, div]
    split
    · exact readReg_raise hr _ s
    · rw [readReg_complete hr]
      cases r with
      | dk i => cases hw
      | _ => rfl
  | pack8 => rw [command, packLow, readReg_complete hr, readReg_storeLow8_of_not_below hw]
  | unpk8 => rw [command, unpackLow, readReg_complete hr, readReg_loadFields_of_not_isField hw]
  | enc8 => exact readReg_encodeLow hr P s hw
  | dec8 =>
    obtain ⟨hf, hb⟩ := Bool.or_eq_false_iff.mp hw
    exact readReg_decodeLow hr P s hf hb
  | packm =>
    simp only [command, packMesCmd]
    split
    · exact readReg_raise hr _ s
    · exact readReg_complete_storeBlock hr _ s hw
  | unpkm => exact readReg_finishMes hr _ s hw
  | encm => exact readReg_encodeMes hr P s hw
  | decm => exact readReg_decodeMes hr P s hw
  | enc =>
    rw [command]
    by_cases hu : s.um = 0
    · rw [writesReg_enc, if_pos hu] at hw
      rw [encodeByFlag_low hu, readReg_encodeLow hr P s hw]
    · rw [writesReg_enc, if_neg hu] at hw
      rw [encodeByFlag_mes hu, readReg_encodeMes hr P s hw]
  | dec =>
    rw [command]
    by_cases hu : s.um = 0
    · rw [writesReg_dec, if_pos hu] at hw
      obtain ⟨hf, hb⟩ := Bool.or_eq_false_iff.mp hw
      rw [decodeByFlag_low hu, readReg_decodeLow hr P s hf hb]
    · rw [writesReg_dec, if_neg hu] at hw
      rw [decodeByFlag_mes hu, readReg_decodeMes hr P s hw]

end Keeps

/-- The low 8 bits of a zero-extended byte are the byte (R43). -/
theorem byte_eq_of_zeroExtended {a b : Byte} (h : a.setWidth 32 = b.setWidth 32) : a = b := by
  simpa using congrArg (BitVec.setWidth 8) h

theorem um_eq_of_zeroExtended {a b : BitVec 1} (h : a.setWidth 32 = b.setWidth 32) : a = b := by
  simpa using congrArg (BitVec.setWidth 1) h

theorem writesReg_dk {i : Instr} (hi : i ≠ .div) (um : BitVec 1) (j : Fin 16) :
    writesReg um i (.dk j) = false := by
  cases i with
  | div => exact absurd rfl hi
  | enc | dec => simp [writesReg, Reg.isField, Reg.isWbBelow]
  | _ => rfl

/-- Only `DIV` writes `DK` (R18). -/
theorem command_dk {i : Instr} (hi : i ≠ .div) (P : Config.Params) (s : State) :
    (command P i s).dk = s.dk := by
  refine Vector.ext fun j hj => ?_
  have h := readReg_command (r := .dk ⟨j, hj⟩) (by simp) P i s (writesReg_dk hi s.um _)
  exact byte_eq_of_zeroExtended h

/-! ## The registers an operation depends on (the `r` entries of R31) -/

/-- Two states hold the same value in every register of `R`. -/
def AgreeOn (R : Reg → Bool) (s s' : State) : Prop := ∀ r, R r = true → readReg r s = readReg r s'

/-- A row of the access matrix that joins two sets of registers is agreement on both. -/
theorem AgreeOn.split {R Q : Reg → Bool} {s s' : State} (h : AgreeOn (fun r => R r || Q r) s s') :
    AgreeOn R s s' ∧ AgreeOn Q s s' :=
  ⟨fun r hr => h r (by simp [hr]), fun r hr => h r (by simp [hr])⟩

/-- Agreement on one register, as the rows of R31 name single registers. -/
theorem AgreeOn.single {x : Reg} {s s' : State} (h : AgreeOn (fun r => r == x) s s') : readReg x s = readReg x s' :=
  h x (by simp)

theorem AgreeOn.fields {s s' : State} (h : AgreeOn Reg.isField s s') :
    s.rc = s'.rc ∧ s.fc = s'.fc ∧ s.cn = s'.cn ∧ s.il = s'.il :=
  ⟨h .rc rfl, h .fc rfl, h .cn rfl, h .il rfl⟩

theorem AgreeOn.wb {n : Nat} {s s' : State} (h : AgreeOn (Reg.isWbBelow n) s s') (i : Nat) (hi : i < 16)
    (hn : i < n) : s.wb[i] = s'.wb[i] :=
  byte_eq_of_zeroExtended (h (.wb ⟨i, hi⟩) (by simpa [Reg.isWbBelow] using hn))

theorem AgreeOn.wb_eq {s s' : State} (h : AgreeOn (Reg.isWbBelow 16) s s') : s.wb = s'.wb :=
  Vector.ext fun i hi => h.wb i hi hi

theorem AgreeOn.low8_eq {s s' : State} (h : AgreeOn (Reg.isWbBelow 8) s s') : low8 s = low8 s' :=
  Vector.ext fun i hi => by simpa using h.wb i (by omega) hi

theorem AgreeOn.sk_eq {s s' : State} (h : AgreeOn Reg.isSk s s') : s.sk = s'.sk :=
  Vector.ext fun i hi => byte_eq_of_zeroExtended (h (.sk ⟨i, hi⟩) rfl)

theorem AgreeOn.snlen_eq {s s' : State} (h : AgreeOn (Reg.isSerial s.snlen) s s') : s.snlen = s'.snlen :=
  byte_eq_of_zeroExtended (h .snlen rfl)

/-- The serial number is `SNLEN` and the bytes of `SN` below it (R15). -/
theorem serial_congr {s s' : State} (hlen : s.snlen = s'.snlen)
    (hsn : ∀ i (_ : i < 10), i < s.snlen.toNat → s.sn[i] = s'.sn[i]) : serial s = serial s' := by
  refine List.ext_getElem (by simp [serial_length, hlen]) fun i hi _ => ?_
  have hi' : i < s.snlen.toNat ∧ i < 10 := by rw [serial_length] at hi; omega
  rw [serial_getElem, serial_getElem]
  exact hsn i hi'.2 hi'.1

theorem AgreeOn.serial_eq {s s' : State} (h : AgreeOn (Reg.isSerial s.snlen) s s') : serial s = serial s' :=
  serial_congr h.snlen_eq fun i hi hn =>
    byte_eq_of_zeroExtended (h (.sn ⟨i, hi⟩) (by simpa [Reg.isSerial] using hn))

theorem diversifiedKey_congr {s s' : State} (hsk : s.sk = s'.sk) (hser : serial s = serial s') :
    diversifiedKey s = diversifiedKey s' := by
  simp only [diversifiedKey, hsk, hser]

theorem AgreeOn.packed8_eq {s s' : State} (h : AgreeOn Reg.isField s s') : packed8 s = packed8 s' := by
  obtain ⟨hrc, hfc, hcn, hil⟩ := h.fields
  rw [packed8, packed8, hrc, hfc, hcn, hil]

theorem AgreeOn.mesPlaintext_eq {s s' : State} (h : AgreeOn Reg.isField s s') (hser : serial s = serial s') :
    mesPlaintext s = mesPlaintext s' := by
  obtain ⟨hrc, hfc, hcn, hil⟩ := h.fields
  rw [mesPlaintext, mesPlaintext, hrc, hfc, hcn, hil, hser]

/-! ## Commands that end alike (R31) -/

/-- The ends `t` of `s` and `t'` of `s'` have one outcome: the same `STATUS`, the same events appended, and
where that is a success the same value in every register of `W`. -/
def EndsAlike (W : Reg → Bool) (s s' t t' : State) : Prop :=
  ∃ evs, t.status = t'.status ∧ t.events = s.events ++ evs ∧ t'.events = s'.events ++ evs ∧
    (codeOf t.status = 0 → ∀ r, W r = true → readReg r t = readReg r t')

section EndsAlike
variable {W : Reg → Bool} {s s' : State}

/-- Of an error only `STATUS` and the events are compared. -/
theorem EndsAlike.raiseWith (e : ErrorKind) (vf : Violations) :
    EndsAlike W s s' (raiseWith e vf s) (raiseWith e vf s') :=
  ⟨_, rfl, rfl, rfl, fun h => absurd ((codeOf_statusError e vf).symm.trans h) (code_ne_zero e)⟩

theorem EndsAlike.raise (e : ErrorKind) : EndsAlike W s s' (raise e s) (raise e s') := .raiseWith e .none

/-- A success compares the registers written, in `u` and `u'`. -/
theorem EndsAlike.emit_status {u u' : State} (evs : List Event) (w : Word) (he : u.events = s.events)
    (he' : u'.events = s'.events) (h : AgreeOn W u u') :
    EndsAlike W s s' (emit evs { u with status := w }) (emit evs { u' with status := w }) := by
  refine ⟨evs, rfl, by simp [he], by simp [he'], fun _ r hr => ?_⟩
  by_cases hs : r = .status
  · rw [hs]; rfl
  · rw [readReg_emit_status hs, readReg_emit_status hs, h r hr]

theorem EndsAlike.complete {u u' : State} (he : u.events = s.events) (he' : u'.events = s'.events)
    (h : AgreeOn W u u') : EndsAlike W s s' (complete u) (complete u') :=
  .emit_status _ _ he he' h

theorem EndsAlike.completeWarn {u u' : State} (x : BitVec 16) (he : u.events = s.events)
    (he' : u'.events = s'.events) (h : AgreeOn W u u') :
    EndsAlike W s s' (completeWarn x u) (completeWarn x u') :=
  .emit_status _ _ he he' h

theorem substituteWb_endsAlike (T : Byte → Byte) (n : Nat) (h : AgreeOn (Reg.isWbBelow n) s s') :
    EndsAlike (Reg.isWbBelow n) s s' (substituteWb T n s) (substituteWb T n s') := by
  unfold substituteWb
  split
  · exact .raise _
  · exact .complete rfl rfl fun r hr =>
      readReg_storeBlock_of_below hr (fun i hi hn => by simp [hn, h.wb i hi hn]) s s'

theorem encodeLow_endsAlike (P : Config.Params) (h : AgreeOn Reg.isField s s') :
    EndsAlike (Reg.isWbBelow 8) s s' (encodeLow P s) (encodeLow P s') := by
  rw [encodeLow, encodeLow, h.packed8_eq]
  exact .complete rfl rfl fun r hr => readReg_storeLow8_of_below hr _ s s'

theorem decodeLow_endsAlike (P : Config.Params) (h : AgreeOn (Reg.isWbBelow 8) s s') :
    EndsAlike (fun r => r.isField || r.isWbBelow 8) s s' (decodeLow P s) (decodeLow P s') := by
  rw [decodeLow, decodeLow, h.low8_eq]
  refine .complete rfl rfl fun r hr => ?_
  cases hf : r.isField with
  | true => exact readReg_loadFields_of_isField hf _ _ _
  | false =>
    rw [readReg_loadFields_of_not_isField hf, readReg_loadFields_of_not_isField hf]
    exact readReg_storeLow8_of_below (by simpa [hf] using hr) _ s s'

/-- The end of an MES decode depends on the marker, the fields and the trailing constant of the plaintext. -/
theorem finishMes_endsAlike {p p' : Bytes 16} (hmark : p[0] = p'[0]) (hfields : unpackMes p = unpackMes p')
    (htrail : trailerOf p = trailerOf p') : EndsAlike Reg.isField s s' (finishMes p s) (finishMes p' s') := by
  have hload : AgreeOn Reg.isField (loadFields (unpackMes p') s) (loadFields (unpackMes p') s') :=
    fun r hr => readReg_loadFields_of_isField hr _ s s'
  simp only [finishMes, hmark, hfields, htrail]
  split
  · exact .raise _
  · split
    · exact .completeWarn _ rfl rfl hload
    · exact .complete rfl rfl hload

theorem complete_storeBlock_endsAlike (b : Bytes 16) :
    EndsAlike (Reg.isWbBelow 16) s s' (complete (storeBlock b s)) (complete (storeBlock b s')) :=
  .complete rfl rfl fun _ hr => readReg_storeBlock_of_below hr (fun _ _ _ => rfl) s s'

theorem encodeMes_endsAlike (P : Config.Params) (hf : AgreeOn Reg.isField s s')
    (hser : AgreeOn (Reg.isSerial s.snlen) s s') (hsk : AgreeOn Reg.isSk s s') :
    EndsAlike (Reg.isWbBelow 16) s s' (encodeMes P s) (encodeMes P s') := by
  simp only [encodeMes, hser.snlen_eq, diversifiedKey_congr hsk.sk_eq hser.serial_eq,
    hf.mesPlaintext_eq hser.serial_eq]
  split
  · exact .raise _
  · split
    · exact .raise _
    · exact complete_storeBlock_endsAlike _

theorem decodeMes_endsAlike (P : Config.Params) (hser : AgreeOn (Reg.isSerial s.snlen) s s')
    (hsk : AgreeOn Reg.isSk s s') (hwb : AgreeOn (Reg.isWbBelow 16) s s') :
    EndsAlike Reg.isField s s' (decodeMes P s) (decodeMes P s') := by
  simp only [decodeMes, hser.snlen_eq, diversifiedKey_congr hsk.sk_eq hser.serial_eq, hwb.wb_eq]
  split
  · exact .raise _
  · split
    · exact .raise _
    · exact finishMes_endsAlike rfl rfl rfl

end EndsAlike

/-- Every command ends alike from states that agree on its row of the access matrix (R31). -/
theorem command_endsAlike (P : Config.Params) (i : Instr) {s s' : State}
    (h : AgreeOn (readsReg s.um s.snlen i) s s') :
    EndsAlike (writesReg s.um i) s s' (command P i s) (command P i s') := by
  cases i with
  | valid =>
    obtain ⟨hrc, hfc, hcn, hil⟩ := AgreeOn.fields h
    simp only [command, validate, hrc, hfc, hcn, hil]
    split
    · exact .complete rfl rfl fun r hr => by cases hr
    · exact .raiseWith _ _
  | scr n => exact substituteWb_endsAlike _ n h
  | dscr n => exact substituteWb_endsAlike _ n h
  | div =>
    obtain ⟨hser, hsk⟩ := AgreeOn.split h
    simp only [command, div, hser.snlen_eq, diversifiedKey_congr hsk.sk_eq hser.serial_eq]
    split
    · exact .raise _
    · refine .complete rfl rfl fun r hr => ?_
      cases r with
      | dk j => rfl
      | _ => cases hr
  | pack8 =>
    rw [command, command, packLow, packLow, AgreeOn.packed8_eq h]
    exact .complete rfl rfl fun r hr => readReg_storeLow8_of_below hr _ s s'
  | unpk8 =>
    obtain ⟨h6, h7⟩ := AgreeOn.split h
    have h7 : s.wb[7] = s'.wb[7] := byte_eq_of_zeroExtended h7.single
    have hu : unpack8 (low8 s) = unpack8 (low8 s') := by simp [unpack8, h6.wb, h7]
    rw [command, command, unpackLow, unpackLow, hu]
    exact .complete rfl rfl fun r hr => readReg_loadFields_of_isField hr _ s s'
  | enc8 => exact encodeLow_endsAlike P h
  | dec8 => exact decodeLow_endsAlike P h
  | packm =>
    obtain ⟨hf, hser⟩ := AgreeOn.split h
    simp only [command, packMesCmd, hser.snlen_eq, hf.mesPlaintext_eq hser.serial_eq]
    split
    · exact .raise _
    · exact complete_storeBlock_endsAlike _
  | unpkm =>
    obtain ⟨h, h15⟩ := AgreeOn.split h
    obtain ⟨h7, h14⟩ := AgreeOn.split h
    have h14 : s.wb[14] = s'.wb[14] := byte_eq_of_zeroExtended h14.single
    have h15 : s.wb[15] = s'.wb[15] := byte_eq_of_zeroExtended h15.single
    exact finishMes_endsAlike (h7.wb 0 (by decide) (by decide)) (by simp [unpackMes, h7.wb])
      (by simp [trailerOf, h14, h15])
  | encm =>
    obtain ⟨h, hsk⟩ := AgreeOn.split h
    obtain ⟨hf, hser⟩ := AgreeOn.split h
    exact encodeMes_endsAlike P hf hser hsk
  | decm =>
    obtain ⟨h, hwb⟩ := AgreeOn.split h
    obtain ⟨hser, hsk⟩ := AgreeOn.split h
    exact decodeMes_endsAlike P hser hsk hwb
  | enc =>
    obtain ⟨hum, h⟩ := AgreeOn.split h
    have hum : s.um = s'.um := um_eq_of_zeroExtended hum.single
    simp only [command, encodeByFlag, writesReg_enc, ← hum]
    by_cases hu : s.um = 0
    · simp only [hu, if_true] at h ⊢
      exact encodeLow_endsAlike P h
    · simp only [hu, if_false] at h ⊢
      obtain ⟨h, hsk⟩ := h.split
      obtain ⟨hf, hser⟩ := h.split
      exact encodeMes_endsAlike P hf hser hsk
  | dec =>
    obtain ⟨hum, h⟩ := AgreeOn.split h
    have hum : s.um = s'.um := um_eq_of_zeroExtended hum.single
    simp only [command, decodeByFlag, writesReg_dec, ← hum]
    by_cases hu : s.um = 0
    · simp only [hu, if_true] at h ⊢
      exact decodeLow_endsAlike P h
    · simp only [hu, if_false] at h ⊢
      obtain ⟨h, hwb⟩ := h.split
      obtain ⟨hser, hsk⟩ := h.split
      exact decodeMes_endsAlike P hser hsk hwb

/-! ## Bytes of SN beyond SNLEN, and STATUS (R15, R19) -/

/-- `s` with another `SN`. -/
def setSn (sn' : Bytes 10) (s : State) : State := { s with sn := sn' }

theorem setSn_eq_self {sn' : Bytes 10} {s : State} (h : s.sn = sn') : setSn sn' s = s := by
  subst h
  rfl

/-- `s` with the registers that no command reads changed: another `STATUS`, and an `SN` of which the bytes beyond
`SNLEN` may differ. -/
def withUnread (s : State) (sn' : Bytes 10) (w : Word) : State := { s with sn := sn', status := w }

@[simp] theorem withUnread_snlen (s : State) (sn' : Bytes 10) (w : Word) :
    (withUnread s sn' w).snlen = s.snlen := rfl
@[simp] theorem withUnread_wb (s : State) (sn' : Bytes 10) (w : Word) : (withUnread s sn' w).wb = s.wb := rfl

theorem substituteWb_withUnread (T : Byte → Byte) (n : Nat) (s : State) (sn' : Bytes 10) (w : Word) :
    substituteWb T n (withUnread s sn' w) = setSn sn' (substituteWb T n s) := by
  unfold substituteWb
  split <;> rfl

theorem finishMes_withUnread (p : Bytes 16) (s : State) (sn' : Bytes 10) (w : Word) :
    finishMes p (withUnread s sn' w) = setSn sn' (finishMes p s) := by
  unfold finishMes
  split
  · rfl
  · split <;> rfl

section WithUnread
variable {s : State} {sn' : Bytes 10} (hsn : ∀ i (_ : i < 10), i < s.snlen.toNat → sn'[i] = s.sn[i]) (w : Word)
include hsn

theorem serial_withUnread : serial (withUnread s sn' w) = serial s := serial_congr rfl hsn

theorem diversifiedKey_withUnread : diversifiedKey (withUnread s sn' w) = diversifiedKey s :=
  diversifiedKey_congr rfl (serial_withUnread hsn w)

theorem mesPlaintext_withUnread : mesPlaintext (withUnread s sn' w) = mesPlaintext s :=
  congrArg (fun sn => packMes s.rc s.fc s.cn s.il (serialSlot sn)) (serial_withUnread hsn w)

theorem encodeMes_withUnread (P : Config.Params) :
    encodeMes P (withUnread s sn' w) = setSn sn' (encodeMes P s) := by
  simp only [encodeMes, withUnread_snlen, diversifiedKey_withUnread hsn, mesPlaintext_withUnread hsn]
  split
  · rfl
  · split <;> rfl

theorem decodeMes_withUnread (P : Config.Params) :
    decodeMes P (withUnread s sn' w) = setSn sn' (decodeMes P s) := by
  simp only [decodeMes, withUnread_snlen, diversifiedKey_withUnread hsn, withUnread_wb]
  split
  · rfl
  · split
    · rfl
    · exact finishMes_withUnread _ s sn' w

/-- No command reads `STATUS` or a byte of `SN` beyond `SNLEN`; each keeps `SN` and writes `STATUS` (R15, R19). -/
theorem command_withUnread (P : Config.Params) (i : Instr) :
    command P i (withUnread s sn' w) = setSn sn' (command P i s) := by
  cases i with
  | valid =>
    by_cases hok : (isValid s.rc s.fc s.cn s.il).ok
    · rw [command, command, validate_of_ok hok, validate_of_ok (s := withUnread s sn' w) hok]
      rfl
    · rw [command, command, validate_of_not_ok hok, validate_of_not_ok (s := withUnread s sn' w) hok]
      rfl
  | scr n => exact substituteWb_withUnread _ n s sn' w
  | dscr n => exact substituteWb_withUnread _ n s sn' w
  | div =>
    simp only [command, div, withUnread_snlen, diversifiedKey_withUnread hsn]
    split <;> rfl
  | pack8 | unpk8 | enc8 | dec8 => rfl
  | packm =>
    simp only [command, packMesCmd, withUnread_snlen, mesPlaintext_withUnread hsn]
    split <;> rfl
  | unpkm => exact finishMes_withUnread s.wb s sn' w
  | encm => exact encodeMes_withUnread hsn w P
  | decm => exact decodeMes_withUnread hsn w P
  | enc =>
    by_cases hu : s.um = 0
    · rw [command, command, encodeByFlag_low hu, encodeByFlag_low (s := withUnread s sn' w) hu]
      rfl
    · rw [command, command, encodeByFlag_mes hu, encodeByFlag_mes (s := withUnread s sn' w) hu]
      exact encodeMes_withUnread hsn w P
  | dec =>
    by_cases hu : s.um = 0
    · rw [command, command, decodeByFlag_low hu, decodeByFlag_low (s := withUnread s sn' w) hu]
      rfl
    · rw [command, command, decodeByFlag_mes hu, decodeByFlag_mes (s := withUnread s sn' w) hu]
      exact decodeMes_withUnread hsn w P

end WithUnread

/-! ## Legal status words (R32) -/

/-- Whatever way a command ends, its `STATUS` is a row of the outcome table (R161). -/
theorem Ends.statusLegal {i : Instr} {s t : State} (h : Ends i s t) : StatusLegal t.status := by
  cases h with
  | completes => simpa using statusLegal_zero
  | warns => simpa using statusLegal_warn
  | failsRange _ hvf => exact statusLegal_range hvf
  | raises e he => exact statusLegal_error he

/-- An input that leaves `STATUS` as it is keeps it legal, and every other one puts a legal word there. -/
theorem Takes.statusLegal {x : HostInput} {s t : State} (h : Takes x s t) (hs : StatusLegal s.status) :
    StatusLegal t.status := by
  cases h with
  | answers => exact hs
  | stores u r a v hw =>
    obtain ⟨-, hstatus, -⟩ := writeReg_keeps hw
    simpa [hstatus] using hs
  | runs w i => exact (command_ends Config.chip i s).statusLegal
  | rejects => exact statusLegal_error (by decide)
  | resets => exact statusLegal_zero

/-- A step that changes the state at all has taken an input, in one of the ways of `Takes`. -/
theorem takes_of_step {s t : State} (h : step s = .next t) (hne : t ≠ s) :
    ∃ x rest, s.inputs = x :: rest ∧ Takes x { s with inputs := rest } t := by
  rcases step_cases s with ⟨-, hs⟩ | ⟨x, rest, u, hx, hs, hu⟩
  · rw [hs] at h
    cases h
    exact absurd rfl hne
  · rw [hs] at h
    cases h
    exact ⟨x, rest, hx, hu⟩

/-! ## The statements -/

/-- Settles O17: a step waits, or takes an input that keeps or writes a legal `STATUS`. -/
theorem everyStepKeepsStatusLegal : Obligations.EveryStepKeepsStatusLegal := by
  intro s t hs ht
  by_cases hne : t = s
  · exact hne ▸ hs
  · obtain ⟨x, rest, -, hx⟩ := takes_of_step ht hne
    exact hx.statusLegal hs

/-- Settles O22, by the frame of each command. -/
theorem commandsWriteTheirRowOfTheAccessMatrixOnly : Obligations.CommandsWriteTheirRowOfTheAccessMatrixOnly :=
  fun i s => ⟨_, exec_eq_command i s, fun _ hr hw => readReg_command hr Config.chip i s hw⟩

/-- Settles O23: from states that agree on a command's row the command ends alike. -/
theorem commandsReadTheirRowOfTheAccessMatrixOnly : Obligations.CommandsReadTheirRowOfTheAccessMatrixOnly := by
  intro i s s' h
  obtain ⟨evs, hend⟩ := command_endsAlike Config.chip i h
  exact ⟨_, _, evs, exec_eq_command i s, exec_eq_command i s', hend⟩

/-- Settles O24: a command sees `SN` through the serial number alone. -/
theorem serialBytesBeyondTheLengthNeverInfluenceAResult :
    Obligations.SerialBytesBeyondTheLengthNeverInfluenceAResult := by
  intro i s sn' hsn
  refine ⟨_, exec_eq_command i s, ?_⟩
  rw [exec_eq_command]
  exact congrArg Host.Outcome.next (command_withUnread hsn s.status Config.chip i)

/-- Settles O25: of the ways an input goes, only a register write and reset reach a supplied operand. -/
theorem onlyTheHostChangesTheSuppliedOperands : Obligations.OnlyTheHostChangesTheSuppliedOperands := by
  intro s t ht hne
  obtain ⟨x, rest, hx, hk⟩ := takes_of_step ht (by rintro rfl; exact hne ⟨rfl, rfl, rfl, rfl⟩)
  refine ⟨x, rest, hx, ?_⟩
  cases hk with
  | answers => exact absurd ⟨rfl, rfl, rfl, rfl⟩ hne
  | stores u r a v _ ha hxa =>
    refine .inr ⟨a, v, hxa, ?_⟩
    rintro rfl
    exact nomatch targetOf_cmd.symm.trans ha
  | runs w i =>
    obtain ⟨hum, hlen, hsn, hsk, -⟩ := command_keeps Config.chip i { s with inputs := rest }
    exact absurd ⟨hum, hlen, hsn, hsk⟩ hne
  | rejects => exact absurd ⟨rfl, rfl, rfl, rfl⟩ hne
  | resets hxr => exact .inl hxr

/-- Settles O26: of the ways an input goes, only `DIV` and reset reach `DK`. -/
theorem onlyDivAndResetChangeDk : Obligations.OnlyDivAndResetChangeDk := by
  intro s t ht hne
  obtain ⟨x, rest, hx, hk⟩ := takes_of_step ht (by rintro rfl; exact hne rfl)
  refine ⟨x, rest, hx, ?_⟩
  cases hk with
  | answers => exact absurd rfl hne
  | stores u r a v hw =>
    obtain ⟨hdk, -⟩ := writeReg_keeps hw
    exact absurd hdk hne
  | runs w i hw hxw =>
    by_cases hi : i = .div
    · exact .inr ⟨w, hxw, hi ▸ hw⟩
    · exact absurd (command_dk hi Config.chip _) hne
  | rejects => exact absurd rfl hne
  | resets hxr => exact .inl hxr

/-- Settles O27: a response and a register write leave `STATUS` and the event output. -/
theorem onlyCommandsAndResetChangeStatusAndEvents : Obligations.OnlyCommandsAndResetChangeStatusAndEvents := by
  intro s t ht hne
  obtain ⟨x, rest, hx, hk⟩ := takes_of_step ht (by rintro rfl; simp at hne)
  refine ⟨x, rest, hx, ?_⟩
  cases hk with
  | answers => simp at hne
  | stores u r a v hw =>
    obtain ⟨-, hstatus, hevents, -⟩ := writeReg_keeps hw
    simp [hstatus, hevents] at hne
  | runs w i _ hxw => exact .inr ⟨w, hxw⟩
  | rejects w e _ hxw => exact .inr ⟨w, hxw⟩
  | resets hxr => exact .inl hxr

/-- Settles O13, register by register. -/
theorem resetStateHoldsTheResetValues : Obligations.ResetStateHoldsTheResetValues :=
  ⟨rfl, rfl, rfl, rfl, rfl, rfl, rfl, rfl, fun i hi => Bytes.getElem_zero 10 i hi,
    fun i hi => ⟨Bytes.getElem_zero 16 i hi, Bytes.getElem_zero 16 i hi, Bytes.getElem_zero 16 i hi⟩⟩

/-- Settles O18: `STATUS` is 0 after reset. -/
theorem statusIsLegalAfterReset : Obligations.StatusIsLegalAfterReset := statusLegal_zero

/-- Settles O20: `STATUS` is 0 and no event has been appended. -/
theorem statusAgreesWithEventsAfterReset : Obligations.StatusAgreesWithEventsAfterReset :=
  show State.reset.status = 0 from rfl

/-- Settles O21: the case of `command_withUnread` that keeps `SN`. -/
theorem noCommandReadsStatus : Obligations.NoCommandReadsStatus := by
  intro i s w
  have h := command_withUnread (s := s) (fun _ _ _ => rfl) w Config.chip i
  obtain ⟨-, -, hsn, -⟩ := command_keeps Config.chip i s
  rw [exec_eq_command, exec_eq_command]
  exact congrArg Host.Outcome.next (h.trans (setSn_eq_self hsn))

end Sys2Proof.Machine
end

section
/-! PROOF. What a step does with each kind of transaction of the host port, said once for every register (spec
rules R42 to R47), and the statements of `20_memory.md`. -/

namespace Sys2Proof.Machine

/-! ## The register map by offset (R42) -/

section Map
variable {a : BitVec 8} {i : Nat}

theorem targetOf_eq_sn (hi : i < 10) (h : a.toNat = 0x10 + i) : targetOf a = .reg (.sn ⟨i, hi⟩) := by
  simpa [← h] using targetOf_sn ⟨i, hi⟩

theorem targetOf_eq_sk (hi : i < 16) (h : a.toNat = 0x20 + i) : targetOf a = .reg (.sk ⟨i, hi⟩) := by
  simpa [← h] using targetOf_sk ⟨i, hi⟩

theorem targetOf_eq_wb (hi : i < 16) (h : a.toNat = 0x30 + i) : targetOf a = .reg (.wb ⟨i, hi⟩) := by
  simpa [← h] using targetOf_wb ⟨i, hi⟩

theorem targetOf_eq_dk (hi : i < 16) (h : a.toNat = 0x40 + i) : targetOf a = .reg (.dk ⟨i, hi⟩) := by
  simpa [← h] using targetOf_dk ⟨i, hi⟩

end Map

/-! ## Significant bits (R43) -/

/-- The significant bits of a register, as a mask of the datum (R42, column "bits"). -/
def Reg.mask : Reg → Word
  | .rc | .fc | .cn | .il | .status => BitVec.allOnes 32
  | .um => 0x1
  | .snlen | .sn _ | .sk _ | .wb _ | .dk _ => 0xFF

theorem low1_eq_mask (v : Word) : (v.setWidth 1).setWidth 32 = v &&& 0x1 := by
  apply BitVec.eq_of_toNat_eq
  have := v.isLt
  simp [Nat.and_one_is_mod]
  omega

theorem low8_eq_mask (v : Word) : (v.setWidth 8).setWidth 32 = v &&& 0xFF := by
  apply BitVec.eq_of_toNat_eq
  have := v.isLt
  simp [Nat.and_two_pow_sub_one_eq_mod v.toNat 8]
  omega

/-- A register reads as the significant bits of what was last written to it (R43). -/
theorem readReg_writeReg {r : Reg} {v : Word} {s t : State} (h : writeReg r v s = some t) :
    readReg r t = v &&& r.mask := by
  cases r with
  | status | dk => cases h
  | rc | fc | cn | il =>
    cases h
    exact BitVec.and_allOnes.symm
  | um =>
    cases h
    exact low1_eq_mask v
  | snlen =>
    cases h
    exact low8_eq_mask v
  | sn | sk | wb =>
    cases h
    simpa [readReg, Reg.mask] using low8_eq_mask v

/-- A write to one byte of an array (R45). -/
theorem getElem_set_byte {n : Nat} (b : Bytes n) (x : Byte) {i j : Nat} (hi : i < n) (hj : j < n) :
    (b.set i x)[j] = if j = i then x else b[j] := by
  simp only [Vector.getElem_set, eq_comm]

/-- The register values do not depend on the two sides of the port. -/
theorem readReg_port (r : Reg) (s : State) (xs : List HostInput) (rs : List Response) :
    readReg r { s with inputs := xs, responses := rs } = readReg r s := by
  cases r <;> rfl

/-! ## A step at each kind of transaction (R44 to R47) -/

theorem step_of_inputs {s : State} {x : HostInput} {rest : List HostInput} (h : s.inputs = x :: rest) :
    step s = takeInput x { s with inputs := rest } := by
  simp only [step, takeNext, h]

section Transaction
variable {s : State} {we : Bool} {a : BitVec 8} {v d : Word} {rest : List HostInput} {r : Reg}

theorem step_read (h : s.inputs = .transaction ⟨false, a, d⟩ :: rest) (ha : targetOf a = .reg r) :
    step s = .next (respond (readDone (readReg r s)) { s with inputs := rest }) := by
  rw [← readReg_port r s rest s.responses]
  simp [step_of_inputs h, takeInput, hostRead, ha]

theorem step_write {t : State} (h : s.inputs = .transaction ⟨true, a, v⟩ :: rest) (ha : targetOf a = .reg r)
    (hw : writeReg r v { s with inputs := rest } = some t) : step s = .next (respond writeDone t) := by
  simp [step_of_inputs h, takeInput, hostWrite, ha, hw]

theorem step_unmapped (h : s.inputs = .transaction ⟨we, a, v⟩ :: rest) (ha : targetOf a = .unmapped) :
    step s = .next (respond transactionRefused { s with inputs := rest }) := by
  cases we <;> simp [step_of_inputs h, takeInput, hostRead, hostWrite, ha]

theorem step_read_cmd (h : s.inputs = .transaction ⟨false, a, d⟩ :: rest) (ha : targetOf a = .cmd) :
    step s = .next (respond transactionRefused { s with inputs := rest }) := by
  simp [step_of_inputs h, takeInput, hostRead, ha]

theorem step_write_readOnly (h : s.inputs = .transaction ⟨true, a, v⟩ :: rest) (ha : targetOf a = .reg r)
    (hw : writeReg r v { s with inputs := rest } = none) :
    step s = .next (respond transactionRefused { s with inputs := rest }) := by
  simp [step_of_inputs h, takeInput, hostWrite, ha, hw]

/-- A register written and then read answers the significant bits of the datum (R43). -/
theorem steps_write_read {t : State}
    (h : s.inputs = .transaction ⟨true, a, v⟩ :: .transaction ⟨false, a, d⟩ :: rest)
    (ha : targetOf a = .reg r)
    (hw : writeReg r v { s with inputs := .transaction ⟨false, a, d⟩ :: rest } = some t)
    {x : Word} (hx : v &&& r.mask = x) :
    ∃ t u, step s = .next t ∧ step t = .next u ∧ u.responses = s.responses ++ [writeDone, readDone x] := by
  obtain ⟨-, -, -, hin, hresp⟩ := writeReg_keeps hw
  have hread : readReg r (respond writeDone t) = x :=
    (readReg_port r t t.inputs _).trans ((readReg_writeReg hw).trans hx)
  refine ⟨_, _, step_write h ha hw, step_read hin ha, ?_⟩
  simp [hresp, hread]

end Transaction

/-! ## What every input does to the port (R41, R50) -/

theorem Takes.inputs_eq {x : HostInput} {s t : State} (h : Takes x s t) : t.inputs = s.inputs := by
  cases h with
  | answers | rejects | resets => rfl
  | stores u r a v hw =>
    obtain ⟨-, -, -, hin, -⟩ := writeReg_keeps hw
    exact hin
  | runs w i =>
    obtain ⟨-, -, -, -, hin, -⟩ := command_keeps Config.chip i s
    exact hin

/-- Every way but reset answers once. -/
theorem Takes.answered {x : HostInput} {s t : State} (h : Takes x s t) (hx : x ≠ .reset) :
    ∃ r, t.responses = s.responses ++ [r] := by
  cases h with
  | answers r => exact ⟨r, rfl⟩
  | stores u r a v hw =>
    obtain ⟨-, -, -, -, hresp⟩ := writeReg_keeps hw
    exact ⟨writeDone, congrArg (· ++ [writeDone]) hresp⟩
  | runs w i =>
    obtain ⟨-, -, -, -, -, hresp⟩ := command_keeps Config.chip i s
    exact ⟨writeDone, congrArg (· ++ [writeDone]) hresp⟩
  | rejects => exact ⟨writeDone, rfl⟩
  | resets hxr => exact absurd hxr hx

/-! ## The statements -/

/-- Settles O9: the address is unmapped, or is `CMD` read, or names a register that takes no write. -/
theorem refusedTransactionsChangeNothing : Obligations.RefusedTransactionsChangeNothing := by
  intro s we a v rest h hcase
  obtain hu | hu | hu | ⟨rfl, rfl⟩ | ⟨rfl, rfl⟩ | ⟨rfl, hlo, hhi⟩ := hcase
  · exact step_unmapped h (targetOf_unmapped (.inl hu))
  · exact step_unmapped h (targetOf_unmapped (.inr (.inl hu)))
  · exact step_unmapped h (targetOf_unmapped (.inr (.inr hu)))
  · exact step_read_cmd h targetOf_cmd
  · exact step_write_readOnly (r := .status) h rfl rfl
  · exact step_write_readOnly h (targetOf_eq_dk (i := a.toNat - 0x40) (by omega) (by omega)) rfl

/-- Settles O7: each readable address names its register, and every other address is a refused read. -/
theorem readAnswersTheRegisterAndChangesNothing : Obligations.ReadAnswersTheRegisterAndChangesNothing := by
  intro s a d rest h
  refine ⟨?_, ?_, ?_, ?_, ?_, ?_, ?_, ?_, ?_, ?_, ?_, ?_⟩
  · rintro rfl; exact step_read (r := .rc) h rfl
  · rintro rfl; exact step_read (r := .fc) h rfl
  · rintro rfl; exact step_read (r := .cn) h rfl
  · rintro rfl; exact step_read (r := .il) h rfl
  · rintro rfl; exact step_read (r := .um) h rfl
  · rintro rfl; exact step_read (r := .snlen) h rfl
  · rintro rfl; exact step_read (r := .status) h rfl
  · exact fun i hi ha => step_read h (targetOf_eq_sn hi ha)
  · exact fun i hi ha => step_read h (targetOf_eq_sk hi ha)
  · exact fun i hi ha => step_read h (targetOf_eq_wb hi ha)
  · exact fun i hi ha => step_read h (targetOf_eq_dk hi ha)
  · intro ha
    refine refusedTransactionsChangeNothing s false a d rest h ?_
    obtain rfl | hne := eq_or_ne a 0x07
    · exact .inr (.inr (.inr (.inl ⟨rfl, rfl⟩)))
    · have : a.toNat ≠ 0x07 := fun h7 => hne (BitVec.eq_of_toNat_eq h7)
      omega

/-- Settles O8: each RW address names its register, and a byte register is one element of its array. -/
theorem writeStoresTheLowBitsInOneRegister : Obligations.WriteStoresTheLowBitsInOneRegister := by
  intro s a v rest h
  refine ⟨?_, ?_, ?_, ?_, ?_, ?_, ?_, ?_, ?_⟩
  · rintro rfl; exact step_write (r := .rc) h rfl rfl
  · rintro rfl; exact step_write (r := .fc) h rfl rfl
  · rintro rfl; exact step_write (r := .cn) h rfl rfl
  · rintro rfl; exact step_write (r := .il) h rfl rfl
  · rintro rfl; exact step_write (r := .um) h rfl rfl
  · rintro rfl; exact step_write (r := .snlen) h rfl rfl
  · exact fun i hi ha => ⟨s.sn.set i (v.setWidth 8), step_write h (targetOf_eq_sn hi ha) rfl,
      fun j hj => getElem_set_byte s.sn _ hi hj⟩
  · exact fun i hi ha => ⟨s.sk.set i (v.setWidth 8), step_write h (targetOf_eq_sk hi ha) rfl,
      fun j hj => getElem_set_byte s.sk _ hi hj⟩
  · exact fun i hi ha => ⟨s.wb.set i (v.setWidth 8), step_write h (targetOf_eq_wb hi ha) rfl,
      fun j hj => getElem_set_byte s.wb _ hi hj⟩

/-- Settles O10, with the mask of the register that each RW address names. -/
theorem readAfterWriteAnswersTheLowBits : Obligations.ReadAfterWriteAnswersTheLowBits := by
  intro s a v d rest h
  refine ⟨fun ha => ?_, ?_, ?_⟩
  · obtain rfl | rfl | rfl | rfl : a = 0x00 ∨ a = 0x01 ∨ a = 0x02 ∨ a = 0x03 := by bv_omega
    · exact steps_write_read (r := .rc) h rfl rfl BitVec.and_allOnes
    · exact steps_write_read (r := .fc) h rfl rfl BitVec.and_allOnes
    · exact steps_write_read (r := .cn) h rfl rfl BitVec.and_allOnes
    · exact steps_write_read (r := .il) h rfl rfl BitVec.and_allOnes
  · rintro rfl
    exact steps_write_read (r := .um) h rfl rfl rfl
  · rintro (rfl | ⟨hlo, hhi⟩ | ⟨hlo, hhi⟩)
    · exact steps_write_read (r := .snlen) h rfl rfl rfl
    · exact steps_write_read h (targetOf_eq_sn (i := a.toNat - 0x10) (by omega) (by omega)) rfl rfl
    · by_cases hsk : a.toNat ≤ 0x2F
      · exact steps_write_read h (targetOf_eq_sk (i := a.toNat - 0x20) (by omega) (by omega)) rfl rfl
      · exact steps_write_read h (targetOf_eq_wb (i := a.toNat - 0x30) (by omega) (by omega)) rfl rfl

/-- Settles O11: a reset answers nothing, and every way a transaction goes answers it once. -/
theorem eachInputIsTakenOnceAndEachTransactionAnsweredOnce :
    Obligations.EachInputIsTakenOnceAndEachTransactionAnsweredOnce := by
  intro s x rest h
  cases x with
  | reset =>
    exact ⟨takeReset { s with inputs := rest }, step_of_inputs h, rfl, fun _ => rfl, fun hx => absurd rfl hx⟩
  | transaction q =>
    obtain ⟨t, ht, hk⟩ := takeInput_takes (.transaction q) { s with inputs := rest }
    exact ⟨t, (step_of_inputs h).trans ht, hk.inputs_eq, nofun, hk.answered⟩

/-- Settles O6, by the law of a step at a command write. -/
theorem stepAtCommandWriteRunsTheDecodedCommand : Obligations.StepAtCommandWriteRunsTheDecodedCommand := by
  intro s w rest h
  have hstep := step_commandWrite h
  constructor
  · intro i hi
    rw [hi] at hstep
    exact ⟨_, exec_eq_command i _, hstep⟩
  · intro e he
    rw [he] at hstep
    exact ⟨_, hstep, congrArg BitVec.toNat (codeOf_statusError .illegalCmd .none), rfl⟩

/-- Settles O12: with an empty queue only the waiting case of a step is left. -/
theorem blockWaitsWhenTheHostIssuesNothing : Obligations.BlockWaitsWhenTheHostIssuesNothing := by
  intro s h
  rcases step_cases s with ⟨-, hs⟩ | ⟨x, rest, -, hx, -⟩
  · exact hs
  · exact nomatch h.symm.trans hx

end Sys2Proof.Machine
end

section
/-! PROOF. Which words the decoder accepts, said once over the three fields of format C, each row of the opcode
table read over the same fields (spec rules R60 to R64), and the statements of `30_encoding.md`. -/

namespace Sys2Proof.Machine

/-! ## A word is its fields (R60) -/

theorem word_eq_iff_fields {w v : Word} :
    w = v ↔ rsvField w = rsvField v ∧ lenField w = lenField v ∧ opcField w = opcField v := by
  constructor
  · rintro rfl
    exact ⟨rfl, rfl, rfl⟩
  · rintro ⟨hr, hl, ho⟩
    simp only [rsvField, lenField, opcField, ← BitVec.toNat_inj, BitVec.extractLsb'_toNat,
      Nat.shiftRight_eq_div_pow] at hr hl ho ⊢
    omega

/-! ## Commands and their opcodes (R61, R62) -/

/-- A command is well formed exactly when its `N` is a byte: the `N` of a command without operand is 0. -/
theorem wellFormed_eq_lengthFits (i : Instr) : wellFormed i = lengthFits (lengthOf i) := by
  cases i <;> rfl

theorem lengthOf_eq_zero {i : Instr} (h : usesLength (opcodeOf i) = false) : lengthOf i = 0 := by
  simpa [h] using lengthOf_of_commandOf (commandOf_opcodeOf i)

/-- An opcode selects a command exactly when it is the opcode of one, whatever `N` holds. -/
theorem commandOf_isSome_iff {opc : BitVec 8} {n : Nat} :
    (∃ i, commandOf opc n = some i) ↔ ∃ i, opcodeOf i = opc := by
  constructor
  · rintro ⟨i, hi⟩
    exact ⟨i, opcodeOf_of_commandOf hi⟩
  · rintro ⟨i, rfl⟩
    cases i <;> exact ⟨_, rfl⟩

/-- The fourteen values of `OPC` (R62). -/
def opcodes : List (BitVec 8) :=
  [0x01, 0x10, 0x11, 0x20, 0x30, 0x31, 0x32, 0x33, 0x40, 0x41, 0x42, 0x43, 0x50, 0x51]

theorem mem_opcodes_iff {opc : BitVec 8} : opc ∈ opcodes ↔ ∃ i, opcodeOf i = opc := by
  constructor
  · have hsel : ∀ o ∈ opcodes, (commandOf o 0).isSome = true := by decide
    exact fun h => commandOf_isSome_iff.mp (Option.isSome_iff_exists.mp (hsel opc h))
  · rintro ⟨i, rfl⟩
    cases i <;> simp [opcodes, opcodeOf]

/-! ## The words the decoder accepts (R63) -/

theorem decode_eq_ok_iff {w : Word} {i : Instr} :
    decode w = .ok i ↔ rsvField w = 0 ∧ commandOf (opcField w) (lenField w).toNat = some i ∧
      (usesLength (opcField w) = false → lenField w = 0) := by
  refine ⟨decode_eq_ok, ?_⟩
  rintro ⟨hr, hc, hl⟩
  simpa [decode, hr, hc] using hl

theorem decode_accepts_iff {w : Word} :
    (∃ i, decode w = .ok i) ↔ rsvField w = 0 ∧ (∃ i, opcodeOf i = opcField w) ∧
      (usesLength (opcField w) = false → lenField w = 0) := by
  simp only [decode_eq_ok_iff, exists_and_left, exists_and_right, commandOf_isSome_iff]

theorem decode_rejects_iff {w : Word} : (∃ e, decode w = .error e) ↔ ¬ ∃ i, decode w = .ok i := by
  cases decode w <;> simp

/-- The operand of a decoded command is the `N` of its word: where it is not used, both are 0. -/
theorem lengthOf_of_decode {w : Word} {i : Instr} (h : decode w = .ok i) : lengthOf i = (lenField w).toNat := by
  obtain ⟨-, hc, hl⟩ := decode_eq_ok h
  rw [lengthOf_of_commandOf hc]
  cases hu : usesLength (opcField w) with
  | true => rfl
  | false => rw [hl hu]; rfl

/-! ## The rows of the opcode table (R63) -/

/-- The row of a command: `N` is outside the mask exactly where it is an operand. -/
def rowOf (i : Instr) : OpcodeRow :=
  ⟨mnemonicOf i, formatC (opcodeOf i) 0, if usesLength (opcodeOf i) then 0xFFFF00FF else 0xFFFFFFFF⟩

theorem rowOf_mem (i : Instr) : rowOf i ∈ opcodeTable := by
  cases i <;> simp [opcodeTable, rowOf, mnemonicOf, opcodeOf, usesLength, formatC]

/-- Every row is the row of the command that its opcode selects. -/
theorem eq_rowOf_of_mem {r : OpcodeRow} (h : r ∈ opcodeTable) : ∃ i, rowOf i = r := by
  have hsel : ∀ q ∈ opcodeTable, (commandOf (opcField q.pattern) 0).map rowOf = some q := by decide
  obtain ⟨i, -, hi⟩ := Option.map_eq_some_iff.mp (hsel r h)
  exact ⟨i, hi⟩

theorem row_eq_of_pattern_eq {r r' : OpcodeRow} (h : r ∈ opcodeTable) (h' : r' ∈ opcodeTable)
    (hp : r.pattern = r'.pattern) : r = r' := by
  have hinj : ∀ q ∈ opcodeTable, ∀ q' ∈ opcodeTable, q.pattern = q'.pattern → q = q' := by decide
  exact hinj r h r' h' hp

theorem and_eq_formatC_iff {w m : Word} {opc n : BitVec 8} :
    w &&& m = formatC opc n ↔
      rsvField w &&& rsvField m = 0 ∧ lenField w &&& lenField m = n ∧ opcField w &&& opcField m = opc := by
  rw [word_eq_iff_fields, rsvField_formatC, lenField_formatC, opcField_formatC]
  simp only [rsvField, lenField, opcField, BitVec.extractLsb'_and]

/-- A row's mask holds the reserved bits and the opcode, and `N` where it is no operand. -/
theorem rowOf_mask_fields (i : Instr) :
    rsvField (rowOf i).mask = BitVec.allOnes 16 ∧
      lenField (rowOf i).mask = (if usesLength (opcodeOf i) then 0 else BitVec.allOnes 8) ∧
      opcField (rowOf i).mask = BitVec.allOnes 8 := by
  cases hu : usesLength (opcodeOf i) <;> simp only [rowOf, hu] <;> decide

/-- What a row asks of a word is what the decoder asks of it. -/
theorem rowOf_matches_iff {i : Instr} {w : Word} :
    w &&& (rowOf i).mask = (rowOf i).pattern ↔ rsvField w = 0 ∧ opcodeOf i = opcField w ∧
      (usesLength (opcodeOf i) = false → lenField w = 0) := by
  obtain ⟨hr, hl, ho⟩ := rowOf_mask_fields i
  have hpat : (rowOf i).pattern = formatC (opcodeOf i) 0 := rfl
  rw [hpat, and_eq_formatC_iff, hr, hl, ho, BitVec.and_allOnes, BitVec.and_allOnes, eq_comm (a := opcField w)]
  cases usesLength (opcodeOf i) with
  | true => simp
  | false => simp only [Bool.false_eq_true, if_false, BitVec.and_allOnes, forall_const, and_comm]

/-! ## The statements -/

/-- Settles O1: the three fields of the word are the command's opcode, its length and zero. -/
theorem decodeOfEncodedCommandIsTheCommand : Obligations.DecodeOfEncodedCommandIsTheCommand := by
  intro i hi
  have hlen : (BitVec.ofNat 8 (lengthOf i)).toNat = lengthOf i :=
    toNat_ofNat_of_lengthFits (wellFormed_eq_lengthFits i ▸ hi)
  rw [encode, decode_eq_ok_iff, rsvField_formatC, opcField_formatC, lenField_formatC, hlen]
  exact ⟨rfl, commandOf_opcodeOf i, fun hu => congrArg (BitVec.ofNat 8) (lengthOf_eq_zero hu)⟩

/-- Settles O2: the command's opcode and length are the fields of the word, whose reserved bits are zero. -/
theorem encodeOfDecodedCommandIsTheWord : Obligations.EncodeOfDecodedCommandIsTheWord := by
  intro w i h
  obtain ⟨hr, hc, -⟩ := decode_eq_ok h
  have hlen := lengthOf_of_decode h
  constructor
  · rw [wellFormed_eq_lengthFits, hlen]
    exact decide_eq_true (lenField w).isLt
  · calc encode i = formatC (opcodeOf i) (BitVec.ofNat 8 (lengthOf i)) := rfl
      _ = formatC (opcField w) (lenField w) := by
        rw [opcodeOf_of_commandOf hc, hlen, BitVec.ofNat_toNat, BitVec.setWidth_eq]
      _ = w := formatC_of_rsv_zero hr

/-- Settles O3: a row asks of a word what the decoder asks of it, and two rows with one opcode are one row. -/
theorem decoderAgreesWithTheMatchAndMaskTable : Obligations.DecoderAgreesWithTheMatchAndMaskTable := by
  intro w
  have hrow {i : Instr} (h : decode w = .ok i) : w &&& (rowOf i).mask = (rowOf i).pattern := by
    obtain ⟨hr, hc, hl⟩ := decode_eq_ok h
    have ho := opcodeOf_of_commandOf hc
    exact rowOf_matches_iff.mpr ⟨hr, ho, ho ▸ hl⟩
  refine ⟨⟨?_, ?_⟩, ?_, ?_⟩
  · rintro ⟨i, h⟩
    exact ⟨rowOf i, rowOf_mem i, hrow h⟩
  · rintro ⟨r, hr, h⟩
    obtain ⟨i, rfl⟩ := eq_rowOf_of_mem hr
    obtain ⟨hrsv, ho, hl⟩ := rowOf_matches_iff.mp h
    exact decode_accepts_iff.mpr ⟨hrsv, ⟨i, ho⟩, ho ▸ hl⟩
  · intro i h
    exact ⟨lengthOf_of_decode h, rowOf i, rowOf_mem i, hrow h, rfl⟩
  · intro r hr r' hr' h h'
    obtain ⟨i, rfl⟩ := eq_rowOf_of_mem hr
    obtain ⟨j, rfl⟩ := eq_rowOf_of_mem hr'
    obtain ⟨-, ho, -⟩ := rowOf_matches_iff.mp h
    obtain ⟨-, ho', -⟩ := rowOf_matches_iff.mp h'
    exact row_eq_of_pattern_eq hr hr' (congrArg (formatC · 0) (ho.trans ho'.symm))

/-- Settles O4: the listed words are those the decoder does not accept, and a step at one raises the error. -/
theorem illegalWordsAreTheListedOnesAndPerformNothing :
    Obligations.IllegalWordsAreTheListedOnesAndPerformNothing := by
  constructor
  · intro w
    have huses : usesLength (opcField w) = false ↔ opcField w ≠ 0x10#8 ∧ opcField w ≠ 0x11#8 := by
      simp [usesLength]
    rw [decode_rejects_iff, decode_accepts_iff, ← mem_opcodes_iff, huses]
    change ¬ (rsvField w = 0 ∧ opcField w ∈ opcodes ∧ _) ↔ rsvField w ≠ 0 ∨ opcField w ∉ opcodes ∨
      (opcField w ≠ 0x10#8 ∧ opcField w ≠ 0x11#8 ∧ lenField w ≠ 0)
    tauto
  · intro s w e rest h he
    have hstep := step_commandWrite h
    rw [he] at hstep
    exact hstep

/-- Settles O5: each word is the encoding of its command. -/
theorem sampleWordsDecodeAsTheTableSays : Obligations.SampleWordsDecodeAsTheTableSays :=
  have h := decodeOfEncodedCommandIsTheCommand
  ⟨h .valid rfl, h (.scr 8) rfl, h (.dscr 255) rfl, h .div rfl, h .pack8 rfl, h .unpk8 rfl, h .enc8 rfl,
    h .dec8 rfl, h .packm rfl, h .unpkm rfl, h .encm rfl, h .decm rfl, h .enc rfl, h .dec rfl⟩

end Sys2Proof.Machine
end

section
/-! PROOF. What substitution does to `WB` over any table, what the two tables do to each other, and which
parameter each command depends on (spec rules R81 to R85, R120, R124), and the statements of
`40_substitution.md`. -/

namespace Sys2Proof.Machine

/-! ## The parameter an operation depends on (R80, R120) -/

section Parameters
variable {P Q : Config.Params}

theorem fwd_congr (h : P.sbox = Q.sbox) : P.fwd = Q.fwd := funext fun v => congrArg (· v) h

theorem inv_congr (h : P.sbox = Q.sbox) : P.inv = Q.inv := funext fun v => congrArg (·.symm v) h

theorem encodeLow_congr (h : P.sbox = Q.sbox) (s : State) : encodeLow P s = encodeLow Q s := by
  rw [encodeLow, encodeLow, fwd_congr h]

theorem decodeLow_congr (h : P.sbox = Q.sbox) (s : State) : decodeLow P s = decodeLow Q s := by
  rw [decodeLow, decodeLow, inv_congr h]

theorem encodeMes_congr (h : P.aesEnc = Q.aesEnc) (s : State) : encodeMes P s = encodeMes Q s := by
  rw [encodeMes, encodeMes, h]

theorem decodeMes_congr (h : P.aesDec = Q.aesDec) (s : State) : decodeMes P s = decodeMes Q s := by
  rw [decodeMes, decodeMes, h]

/-- The serial length is checked before the port is called (R124). -/
theorem encodeMes_of_gt {s : State} (h : s.snlen.toNat > 4) : encodeMes P s = raise .serialLen s := if_pos h

theorem decodeMes_of_gt {s : State} (h : s.snlen.toNat > 4) : decodeMes P s = raise .serialLen s := if_pos h

/-- With one AES port, the commands off the 8-byte path end alike whatever the table. -/
theorem command_congr_of_port (henc : P.aesEnc = Q.aesEnc) (hdec : P.aesDec = Q.aesDec) {i : Instr} {s : State}
    (hi : i ∈ [.valid, .div, .pack8, .unpk8, .packm, .unpkm, .encm, .decm] ∨ (i ∈ [.enc, .dec] ∧ s.um = 1)) :
    command P i s = command Q i s := by
  cases i with
  | valid | div | pack8 | unpk8 | packm | unpkm => rfl
  | scr n | dscr n | enc8 | dec8 => simp at hi
  | encm => exact encodeMes_congr henc s
  | decm => exact decodeMes_congr hdec s
  | enc =>
    have hu : s.um ≠ 0 := by rw [(hi.resolve_left (by decide)).2]; decide
    rw [command, command, encodeByFlag_mes hu, encodeByFlag_mes hu, encodeMes_congr henc]
  | dec =>
    have hu : s.um ≠ 0 := by rw [(hi.resolve_left (by decide)).2]; decide
    rw [command, command, decodeByFlag_mes hu, decodeByFlag_mes hu, decodeMes_congr hdec]

/-- With one table, a command that does not reach the port ends alike whatever the port: it is off the MES path,
or the serial number is too long for that path. -/
theorem command_congr_of_table (h : P.sbox = Q.sbox) {i : Instr} {s : State}
    (hi : i ∉ [.encm, .decm, .enc, .dec] ∨ (i ∈ [.enc, .dec] ∧ s.um = 0) ∨ s.snlen.toNat > 4) :
    command P i s = command Q i s := by
  cases i with
  | valid | div | pack8 | unpk8 | packm | unpkm => rfl
  | scr n => rw [command, command, scr, scr, fwd_congr h]
  | dscr n => rw [command, command, dscr, dscr, inv_congr h]
  | enc8 => exact encodeLow_congr h s
  | dec8 => exact decodeLow_congr h s
  | encm =>
    have hlen : s.snlen.toNat > 4 := by simpa using hi
    rw [command, command, encodeMes_of_gt hlen, encodeMes_of_gt hlen]
  | decm =>
    have hlen : s.snlen.toNat > 4 := by simpa using hi
    rw [command, command, decodeMes_of_gt hlen, decodeMes_of_gt hlen]
  | enc =>
    by_cases hu : s.um = 0
    · rw [command, command, encodeByFlag_low hu, encodeByFlag_low hu, encodeLow_congr h]
    · have hlen : s.snlen.toNat > 4 := (hi.resolve_left (by decide)).resolve_left fun hlow => hu hlow.2
      rw [command, command, encodeByFlag_mes hu, encodeByFlag_mes hu, encodeMes_of_gt hlen, encodeMes_of_gt hlen]
  | dec =>
    by_cases hu : s.um = 0
    · rw [command, command, decodeByFlag_low hu, decodeByFlag_low hu, decodeLow_congr h]
    · have hlen : s.snlen.toNat > 4 := (hi.resolve_left (by decide)).resolve_left fun hlow => hu hlow.2
      rw [command, command, decodeByFlag_mes hu, decodeByFlag_mes hu, decodeMes_of_gt hlen, decodeMes_of_gt hlen]

end Parameters

/-! ## The word of SCR and DSCR (R82, R83) -/

/-- A length that fits its field stands in the word as the number shifted to bits 15:8. -/
theorem formatC_ofNat {n : Nat} (h : n < 256) (opc : BitVec 8) :
    formatC opc (BitVec.ofNat 8 n) = (BitVec.ofNat 32 n <<< 8) ||| opc.setWidth 32 := by
  have hn : (BitVec.ofNat 8 n).setWidth 32 = BitVec.ofNat 32 n := by
    apply BitVec.eq_of_toNat_eq
    simp only [BitVec.toNat_setWidth, BitVec.toNat_ofNat]
    omega
  rw [formatC, hn]

/-- The word of a command with a length operand decodes to it. -/
theorem decode_of_length {i : Instr} (h : lengthOf i < 256) :
    decode ((BitVec.ofNat 32 (lengthOf i) <<< 8) ||| (opcodeOf i).setWidth 32) = .ok i := by
  rw [← formatC_ofNat h]
  exact decodeOfEncodedCommandIsTheCommand i ((wellFormed_eq_lengthFits i).trans (decide_eq_true h))

/-! ## Substitution over any table (R81, R84) -/

section Substitution
variable {T U : Byte → Byte} {n : Nat} {s : State}

/-- A table entry depends on its own byte alone, so the inverse table undoes the table byte by byte. -/
theorem subst_subst {m : Nat} (h : Function.LeftInverse U T) (a : Bytes m) : subst U (subst T a n) n = a := by
  refine Vector.ext fun i hi => ?_
  by_cases hn : i < n
  · rw [subst_getElem, if_pos hn, subst_getElem, if_pos hn, h]
  · rw [subst_getElem, if_neg hn, subst_getElem, if_neg hn]

/-- A length above 16 raises `ERR_OPERAND` and substitutes nothing (R84). -/
theorem substituteWb_of_gt (h : n > 16) :
    substituteWb T n s = { s with status := 7, events := s.events ++ [.err .operand] } :=
  (if_pos h).trans (raise_eq .operand s)

/-- The whole effect of a command that substitutes `WB` over a table, on both sides of the length 16. -/
theorem exec_of_substituteWb {i : Instr} (hi : command Config.chip i s = substituteWb T n s) :
    (n ≤ 16 → ∃ wb' : Bytes 16,
      exec i s = .next { s with wb := wb', status := 0, events := s.events ++ [.ok] } ∧
      ∀ (k : Nat) (_ : k < 16), wb'[k] = if k < n then T s.wb[k] else s.wb[k]) ∧
    (n > 16 → exec i s = .next { s with status := 7, events := s.events ++ [.err .operand] }) := by
  rw [exec_eq_command, hi]
  constructor
  · intro h
    rw [substituteWb_of_le h, complete_eq]
    exact ⟨subst T s.wb n, rfl, subst_getElem T s.wb n⟩
  · intro h
    rw [substituteWb_of_gt h]

theorem substituteWb_wb (h : n ≤ 16) : (substituteWb T n s).wb = subst T s.wb n := by
  rw [substituteWb_of_le h, complete_wb, storeBlock_wb]

theorem substituteWb_substituteWb_wb (hT : Function.LeftInverse U T) (h : n ≤ 16) :
    (substituteWb U n (substituteWb T n s)).wb = s.wb := by
  rw [substituteWb_wb h, substituteWb_wb h, subst_subst hT]

end Substitution

/-! ## The statements -/

/-- Settles O28: a command sees the parameters through the table or through the port, and not past `SNLEN` 4. -/
theorem tablesServeTheEightByteAndAesTheMesPathOnly : Obligations.TablesServeTheEightByteAndAesTheMesPathOnly :=
  fun _ _ _ _ => ⟨fun henc hdec hi => command_congr_of_port henc hdec hi, fun h hi => command_congr_of_table h hi⟩

/-- Settles O29: `SCR n` is the substitution over the forward table. -/
theorem scrSubstitutesTheFirstBytesForward : Obligations.ScrSubstitutesTheFirstBytesForward :=
  fun n _ => ⟨decode_of_length (i := .scr n), exec_of_substituteWb (T := Config.chip.fwd) rfl⟩

/-- Settles O30: `DSCR n` is the substitution over the inverse table. -/
theorem dscrSubstitutesTheFirstBytesInversely : Obligations.DscrSubstitutesTheFirstBytesInversely :=
  fun n _ => ⟨decode_of_length (i := .dscr n), exec_of_substituteWb (T := Config.chip.inv) rfl⟩

/-- Settles O31: each table is the inverse of the other. -/
theorem scrAndDscrUndoEachOther : Obligations.ScrAndDscrUndoEachOther := fun n s h =>
  ⟨⟨_, _, exec_eq_command (.scr n) s, exec_eq_command (.dscr n) _,
      substituteWb_substituteWb_wb Config.chip.sbox.symm_apply_apply h⟩,
    ⟨_, _, exec_eq_command (.dscr n) s, exec_eq_command (.scr n) _,
      substituteWb_substituteWb_wb Config.chip.sbox.apply_symm_apply h⟩⟩

end Sys2Proof.Machine
end

section
/-! PROOF. The two ends of `DIV`, and `Deversify` as the exclusive-or of the site key with the serial number
extended by zero bytes, from which its laws follow (spec rules R90 to R93), and the statements of
`41_deversify.md`. -/

namespace Sys2Proof.Machine

/-! ## The two ends of DIV (R91, R92) -/

/-- With an admissible serial length `DIV` completes, and writes `DK` alone of the registers it may set. -/
theorem div_of_le {s : State} (h : s.snlen.toNat ≤ 10) :
    div s = { s with dk := diversifiedKey s, status := 0, events := s.events ++ [.ok] } :=
  (if_neg (Nat.not_lt.mpr h)).trans (complete_eq _)

/-- The serial length is checked before `DK` is written. -/
theorem div_of_gt {s : State} (h : s.snlen.toNat > 10) :
    div s = { s with status := 5, events := s.events ++ [.err .divLen] } :=
  (if_pos h).trans (raise_eq .divLen s)

/-! ## Deversify as one exclusive-or (R90, R93) -/

section Deversify
variable (sk : Bytes 16) {a b : List Byte}

/-- A byte beyond the serial number is a byte of the key unchanged, which exclusive-or with zero also gives. -/
theorem deversify_getElem_eq_xor (ha : a.length ≤ Config.divMax) (i : Nat) (hi : i < 16) :
    (deversify sk a ha)[i] = sk[i] ^^^ a.getD i 0#8 := by
  rw [deversify_getElem, List.getD_eq_getElem?_getD]
  by_cases hl : i < a.length
  · rw [dif_pos hl, List.getElem?_eq_getElem hl, Option.getD_some]
  · rw [dif_neg hl, List.getElem?_eq_none (Nat.le_of_not_lt hl), Option.getD_none, BitVec.xor_zero]

/-- `Deversify` sees a serial number only as its extension by zero bytes. -/
theorem deversify_congr (ha : a.length ≤ Config.divMax) (hb : b.length ≤ Config.divMax)
    (h : ∀ i, a.getD i 0#8 = b.getD i 0#8) : deversify sk a ha = deversify sk b hb := by
  refine Vector.ext fun i hi => ?_
  rw [deversify_getElem_eq_xor, deversify_getElem_eq_xor, h]

/-- The empty serial number gives the site key (R93 (b)). -/
theorem deversify_nil (h : ([] : List Byte).length ≤ Config.divMax) : deversify sk [] h = sk := by
  refine Vector.ext fun i hi => ?_
  rw [deversify_getElem_eq_xor, List.getD_nil, BitVec.xor_zero]

/-- Diversifying twice gives the site key back (R93 (c)). -/
theorem deversify_deversify (ha : a.length ≤ Config.divMax) : deversify (deversify sk a ha) a ha = sk := by
  refine Vector.ext fun i hi => ?_
  rw [deversify_getElem_eq_xor, deversify_getElem_eq_xor, BitVec.xor_assoc, BitVec.xor_self, BitVec.xor_zero]

/-- Two keys agree at a byte exactly where the serial numbers, extended by zero bytes, agree (R93 (d)). -/
theorem deversify_getElem_eq_iff (ha : a.length ≤ Config.divMax) (hb : b.length ≤ Config.divMax) (i : Nat)
    (hi : i < 16) : (deversify sk a ha)[i] = (deversify sk b hb)[i] ↔ a.getD i 0#8 = b.getD i 0#8 := by
  rw [deversify_getElem_eq_xor, deversify_getElem_eq_xor, BitVec.xor_right_inj]

/-- Appended zero bytes are what the extension of a serial number holds anyway. -/
theorem getD_append_replicate_zero (a : List Byte) (n i : Nat) :
    (a ++ List.replicate n 0#8).getD i 0#8 = a.getD i 0#8 := by
  by_cases hl : i < a.length
  · rw [List.getD_append _ _ _ _ hl]
  · have hi := Nat.le_of_not_lt hl
    rw [List.getD_append_right _ _ _ _ hi, List.getD_eq_default _ _ hi, List.getD_eq_getElem?_getD,
      List.getElem?_getD_replicate_default_eq]

/-- Zero bytes appended to the serial number change nothing (R93 (e)). -/
theorem deversify_append_replicate_zero (ha : a.length ≤ Config.divMax) {n : Nat}
    (hn : (a ++ List.replicate n 0#8).length ≤ Config.divMax) :
    deversify sk (a ++ List.replicate n 0#8) hn = deversify sk a ha :=
  deversify_congr sk hn ha (getD_append_replicate_zero a n)

end Deversify

/-! ## The statements -/

/-- Settles O33: on each side of the length 10 `DIV` ends in one way, and `DK` takes the diversified key. -/
theorem divWritesTheDiversifiedKeyToDk : Obligations.DivWritesTheDiversifiedKeyToDk := by
  refine ⟨decodeOfEncodedCommandIsTheCommand .div rfl, fun s => ⟨fun h => ?_, fun h => ?_⟩⟩
  · refine ⟨diversifiedKey s, (exec_eq_command .div s).trans (congrArg Host.Outcome.next (div_of_le h)),
      fun i hi hlt => ?_, fun i hi hle => ?_⟩
    · rw [diversifiedKey_getElem, dif_pos ⟨hlt, hi⟩]
    · rw [diversifiedKey_getElem, dif_neg fun hin => Nat.not_lt.mpr hle hin.1]
  · exact (exec_eq_command .div s).trans (congrArg Host.Outcome.next (div_of_gt h))

/-- Settles O34: each law is a law of exclusive-or, byte by byte. -/
theorem deversifyLaws : Obligations.DeversifyLaws := by
  intro sk a ha
  refine ⟨deversify_nil sk _, deversify_deversify sk ha, fun b hb _ i hi hi' => ?_,
    fun n hn => deversify_append_replicate_zero sk ha hn⟩
  rw [Ne, deversify_getElem_eq_iff, List.getD_eq_getElem _ _ hi, List.getD_eq_getElem _ _ hi']

end Sys2Proof.Machine
end

section
/-! PROOF. What the 8-byte commands leave in `WB` and in the fields, and what packing and unpacking do to each
other (spec rules R100 to R108), and the statements of `42_codec8.md`. -/

namespace Sys2Proof.Machine

/-! ## The low half of WB (R103, R106) -/

section LowHalf
variable (T : Byte → Byte) (b : Bytes 8) (s : State)

theorem storeLow8_getElem (i : Nat) (hi : i < 16) :
    (storeLow8 b s).wb[i] = if h : i < 8 then b[i] else s.wb[i] := by
  rw [storeLow8_wb, Bytes.getElem_gen]
  rfl

theorem storeLow8_getElem_of_lt {i : Nat} (h : i < 8) : (storeLow8 b s).wb[i] = b[i] := by
  rw [storeLow8_getElem, dif_pos h]

theorem storeLow8_getElem_of_ge {i : Nat} (hi : i < 16) (h : 8 ≤ i) : (storeLow8 b s).wb[i] = s.wb[i] := by
  rw [storeLow8_getElem, dif_neg (Nat.not_lt.mpr h)]

/-- The low half of `WB` stored back leaves `WB` as it was. -/
theorem storeLow8_low8_wb : (storeLow8 (low8 s) s).wb = s.wb := by
  refine Vector.ext fun i hi => ?_
  by_cases h : i < 8
  · rw [storeLow8_getElem_of_lt _ _ h, low8_getElem]
  · rw [storeLow8_getElem_of_ge _ _ hi (Nat.le_of_not_lt h)]

/-- Eight bytes substituted and then stored are eight bytes stored and then substituted in `WB`. -/
theorem storeLow8_subst_wb : (storeLow8 (subst T b 8) s).wb = subst T (storeLow8 b s).wb 8 := by
  refine Vector.ext fun i hi => ?_
  rw [subst_getElem]
  by_cases h : i < 8
  · rw [if_pos h, storeLow8_getElem_of_lt _ _ h, storeLow8_getElem_of_lt _ _ h, subst_getElem, if_pos h]
  · have hge := Nat.le_of_not_lt h
    rw [if_neg h, storeLow8_getElem_of_ge _ _ hi hge, storeLow8_getElem_of_ge _ _ hi hge]

/-- The same substitution of the bytes that `WB` holds already. -/
theorem storeLow8_subst_low8_wb : (storeLow8 (subst T (low8 s) 8) s).wb = subst T s.wb 8 := by
  rw [storeLow8_subst_wb, storeLow8_low8_wb]

end LowHalf

/-! ## The whole effect of a command -/

section Effects
variable (P : Config.Params) (s : State)

/-- The whole next state of `PACK8` (R103). -/
theorem packLow_eq : packLow s =
    { s with wb := (storeLow8 (packed8 s) s).wb, status := 0, events := s.events ++ [.ok] } :=
  complete_eq _

/-- The whole next state of `UNPK8` (R104). -/
theorem unpackLow_eq : unpackLow s = { s with
    rc := (unpack8 (low8 s)).rc.setWidth 32, fc := (unpack8 (low8 s)).fc.setWidth 32,
    cn := (unpack8 (low8 s)).cn.setWidth 32, il := (unpack8 (low8 s)).il.setWidth 32,
    status := 0, events := s.events ++ [.ok] } :=
  complete_eq _

/-- The whole next state of `ENC8` (R105). -/
theorem encodeLow_eq : encodeLow P s =
    { s with wb := (storeLow8 (subst P.fwd (packed8 s) 8) s).wb, status := 0, events := s.events ++ [.ok] } :=
  complete_eq _

/-- The whole next state of `DEC8`, with `b` the descrambled block (R106). -/
theorem decodeLow_eq {b : Bytes 8} (hb : subst P.inv (low8 s) 8 = b) : decodeLow P s = { s with
    wb := (storeLow8 b s).wb,
    rc := (unpack8 b).rc.setWidth 32, fc := (unpack8 b).fc.setWidth 32,
    cn := (unpack8 b).cn.setWidth 32, il := (unpack8 b).il.setWidth 32,
    status := 0, events := s.events ++ [.ok] } := by
  subst hb
  exact complete_eq _

/-- `ENC8` has exactly the effect of `PACK8` and then `SCR 8` on the registers (R105). -/
theorem encodeLow_sameRegisters : SameRegisters (encodeLow P s) (scr P 8 (packLow s)) := by
  rw [encodeLow_eq, scr, substituteWb_of_le (by decide), complete_eq, packLow_eq]
  exact ⟨rfl, rfl, rfl, rfl, rfl, rfl, rfl, rfl, storeLow8_subst_wb P.fwd (packed8 s) s, rfl, rfl⟩

/-- `DEC8` has exactly the effect of `DSCR 8` and then `UNPK8` on the registers (R106). -/
theorem decodeLow_sameRegisters : SameRegisters (decodeLow P s) (unpackLow (dscr P 8 s)) := by
  rw [decodeLow_eq P s rfl, dscr, substituteWb_of_le (by decide), unpackLow_eq, low8_complete_subst, complete_eq]
  exact ⟨rfl, rfl, rfl, rfl, rfl, rfl, rfl, rfl, storeLow8_subst_low8_wb P.inv s, rfl, rfl⟩

end Effects

/-! ## Packing, then unpacking (R107) -/

/-- The field registers of `t` are those of `s` truncated to their declared widths. -/
def TruncatesFields (s t : State) : Prop :=
  t.rc = s.rc &&& 0xF ∧ t.fc = s.fc &&& 0xFFFF ∧ t.cn = s.cn &&& 0xFFFFFF ∧ t.il = s.il &&& 0xF

/-- A command that completes with the extraction of the packing loaded has truncated the fields. -/
theorem complete_loadFields_unpack8_packed8 (s t : State) :
    TruncatesFields s (complete (loadFields (unpack8 (packed8 s)) t)) := by
  rw [packed8, unpack8_pack8]
  exact ⟨field4_eq_mask _, field16_eq_mask _, field24_eq_mask _, field4_eq_mask _⟩

theorem unpackLow_packLow (s : State) : TruncatesFields s (unpackLow (packLow s)) := by
  rw [unpackLow, packLow, low8_complete_storeLow8]
  exact complete_loadFields_unpack8_packed8 s _

theorem decodeLow_encodeLow (P : Config.Params) (s : State) :
    TruncatesFields s (decodeLow P (encodeLow P s)) := by
  have hb : subst P.inv (low8 (encodeLow P s)) 8 = packed8 s := by
    rw [encodeLow, low8_complete_storeLow8, subst_inv_fwd]
  rw [decodeLow, hb]
  exact complete_loadFields_unpack8_packed8 s _

/-- Fields in range are their own truncations. -/
theorem TruncatesFields.eq_of_inRange {s t : State} (h : TruncatesFields s t) (hs : InRange s) :
    t.rc = s.rc ∧ t.fc = s.fc ∧ t.cn = s.cn ∧ t.il = s.il := by
  obtain ⟨hrc, hfc, hcn, hil⟩ := h
  obtain ⟨rc, fc, cn, il⟩ := hs
  exact ⟨hrc.trans (mask4_eq_self _ rc), hfc.trans (mask16_eq_self _ fc), hcn.trans (mask24_eq_self _ cn),
    hil.trans (mask4_eq_self _ il)⟩

/-- Packing is injective on fields in range, since unpacking gives them back. -/
theorem fields_eq_of_packed8_eq {s s' : State} (hs : InRange s) (hs' : InRange s')
    (h : packed8 s = packed8 s') : s.rc = s'.rc ∧ s.fc = s'.fc ∧ s.cn = s'.cn ∧ s.il = s'.il := by
  obtain ⟨rc, fc, cn, il⟩ := (complete_loadFields_unpack8_packed8 s s).eq_of_inRange hs
  obtain ⟨rc', fc', cn', il'⟩ := (complete_loadFields_unpack8_packed8 s' s).eq_of_inRange hs'
  rw [h] at rc fc cn il
  exact ⟨rc.symm.trans rc', fc.symm.trans fc', cn.symm.trans cn', il.symm.trans il'⟩

/-! ## Unpacking, then packing (R108) -/

/-- A block with the sixteen bits cleared that `Unpack8` ignores (R102). -/
def clearIgnored (b : Bytes 8) : Bytes 8 :=
  #v[b[0], b[1], b[2], b[3] &&& 0xFE, b[4] &&& 0x1F, b[5] &&& 0x0F, 0x00, b[7]]

/-- Packing the fields of a block gives it back with the ignored bits cleared. -/
theorem pack8_unpack8 (b : Bytes 8) :
    pack8 ((unpack8 b).rc.setWidth 32) ((unpack8 b).fc.setWidth 32) ((unpack8 b).cn.setWidth 32)
      ((unpack8 b).il.setWidth 32) = clearIgnored b := by
  refine Vector.ext fun i hi => BitVec.eq_of_getLsbD_eq fun k hk => ?_
  interval_cases i
  · rw [pack8_0, BitVec.getLsbD_extractLsb', BitVec.getLsbD_setWidth, unpack8_cn_bit _ _ (by omega)]
    simp [clearIgnored, hk, show 16 + k < 32 by omega, show ¬ 16 + k < 3 by omega, show ¬ 16 + k < 11 by omega]
  · rw [pack8_1, BitVec.getLsbD_extractLsb', BitVec.getLsbD_setWidth, unpack8_fc_bit _ _ (by omega)]
    simp [clearIgnored, hk, show 4 + k < 32 by omega, show 4 + k < 12 by omega]
  · rw [pack8_2, BitVec.getLsbD_extractLsb', BitVec.getLsbD_setWidth, unpack8_cn_bit _ _ (by omega)]
    simp [clearIgnored, hk, show 3 + k < 32 by omega, show 3 + k < 11 by omega]
  · rw [pack8_3_bit _ _ _ _ _ hk]
    interval_cases k <;> simp [clearIgnored, unpack8_rc_bit, unpack8_cn_bit, -BitVec.getLsbD_eq_getElem]
  · rw [pack8_4_bit _ _ _ _ _ hk]
    interval_cases k <;> simp [clearIgnored, unpack8_cn_bit, -BitVec.getLsbD_eq_getElem]
  · rw [pack8_5_bit _ _ _ _ _ hk]
    interval_cases k <;> simp [clearIgnored, unpack8_fc_bit, -BitVec.getLsbD_eq_getElem]
  · rfl
  · rw [pack8_7_bit _ _ _ _ _ hk]
    interval_cases k <;> simp [clearIgnored, unpack8_il_bit, unpack8_fc_bit, -BitVec.getLsbD_eq_getElem]

/-- What `UNPK8` and then `PACK8` leave in the low half of `WB`. -/
theorem packLow_unpackLow_getElem_of_lt (s : State) {i : Nat} (hi : i < 8) :
    (packLow (unpackLow s)).wb[i] = (clearIgnored (low8 s))[i] := by
  have hb : packed8 (unpackLow s) = clearIgnored (low8 s) := pack8_unpack8 (low8 s)
  rw [packLow, complete_wb, storeLow8_getElem_of_lt _ _ hi, hb]

/-! ## The statements -/

/-- Settles O35: the packing meets the formulas, and `PACK8` stores it. -/
theorem pack8PacksByTheFormulas : Obligations.Pack8PacksByTheFormulas :=
  ⟨decodeOfEncodedCommandIsTheCommand .pack8 rfl, fun s => ⟨_, packed8 s,
    (exec_eq_command .pack8 s).trans (congrArg Host.Outcome.next (packLow_eq s)),
    pack8_formulas _ _ _ _, storeLow8_getElem _ s⟩⟩

/-- Settles O36: the packing meets the bit table, and `PACK8` stores it. -/
theorem pack8PlacesEveryFieldBit : Obligations.Pack8PlacesEveryFieldBit := fun s =>
  ⟨packLow s, packed8 s, exec_eq_command .pack8 s, fun _ hi => (storeLow8_getElem_of_lt _ s hi).symm,
    pack8_layout _ _ _ _⟩

/-- Settles O37: the extraction meets the formulas, and `UNPK8` loads it. -/
theorem unpk8ExtractsByTheFormulas : Obligations.Unpk8ExtractsByTheFormulas :=
  ⟨decodeOfEncodedCommandIsTheCommand .unpk8 rfl, fun s => ⟨_, _, _, _, low8 s,
    (exec_eq_command .unpk8 s).trans (congrArg Host.Outcome.next (unpackLow_eq s)), low8_getElem s,
    unpack8_formulas _⟩⟩

/-- Settles O38: the packing meets the formulas, `ENC8` stores its substitution, and substituting before or after
the store is the same. -/
theorem enc8LeavesTheSubstitutedPacking : Obligations.Enc8LeavesTheSubstitutedPacking := by
  refine ⟨decodeOfEncodedCommandIsTheCommand .enc8 rfl, fun s => ⟨_, packed8 s,
    (exec_eq_command .enc8 s).trans (congrArg Host.Outcome.next (encodeLow_eq _ s)), pack8_formulas _ _ _ _,
    fun i hi => ?_⟩, fun s => ⟨_, _, _, exec_eq_command .enc8 s, exec_eq_command .pack8 s,
    exec_eq_command (.scr 8) _, encodeLow_sameRegisters _ s⟩⟩
  rw [storeLow8_getElem]
  split
  next h => rw [subst_getElem, if_pos h, Config.Params.fwd]
  next => rfl

/-- Settles O39: `DEC8` extracts from the descrambled block, which it also stores. -/
theorem dec8LoadsTheFieldsOfTheDescrambledBlock : Obligations.Dec8LoadsTheFieldsOfTheDescrambledBlock := by
  refine ⟨decodeOfEncodedCommandIsTheCommand .dec8 rfl, fun s => ⟨_, subst Config.chip.inv (low8 s) 8, _, _, _, _,
    (exec_eq_command .dec8 s).trans (congrArg Host.Outcome.next (decodeLow_eq _ s rfl)), fun i hi => ?_,
    unpack8_formulas _, storeLow8_getElem _ s⟩, fun s => ⟨_, _, _, exec_eq_command .dec8 s,
    exec_eq_command (.dscr 8) s, exec_eq_command .unpk8 _, decodeLow_sameRegisters _ s⟩⟩
  rw [subst_getElem, if_pos hi, low8_getElem, Config.Params.inv]

/-- Settles O40: unpacking truncates what was packed, and the tables cancel. -/
theorem eightByteRoundTripTruncatesTheFields : Obligations.EightByteRoundTripTruncatesTheFields := by
  refine ⟨fun s => ⟨_, _, exec_eq_command .enc8 s, exec_eq_command .dec8 _, decodeLow_encodeLow _ s⟩,
    fun s => ⟨_, _, exec_eq_command .pack8 s, exec_eq_command .unpk8 _, unpackLow_packLow s⟩,
    fun s s' hs hs' t t' ht ht' hwb => fields_eq_of_packed8_eq hs hs' ?_⟩
  rw [exec_eq_command] at ht ht'
  cases ht
  cases ht'
  refine Vector.ext fun i hi => ?_
  calc (packed8 s)[i] = (packLow s).wb[i] := (storeLow8_getElem_of_lt _ s hi).symm
    _ = (packLow s').wb[i] := hwb i hi
    _ = (packed8 s')[i] := storeLow8_getElem_of_lt _ s' hi

/-- Settles O41: packing after unpacking clears the ignored bits of the low half, and the rest of `WB` is kept. -/
theorem repackingClearsTheIgnoredBits : Obligations.RepackingClearsTheIgnoredBits := by
  refine fun s => ⟨unpackLow s, packLow (unpackLow s), exec_eq_command .unpk8 s, exec_eq_command .pack8 _, rfl, rfl,
    ?_, ?_, ?_, ?_, ?_, ?_, ?_, ?_, fun i hi h => storeLow8_getElem_of_ge _ _ hi h⟩
  all_goals
    rw [packLow_unpackLow_getElem_of_lt s (by decide)]
    simp [clearIgnored]

end Sys2Proof.Machine
end

section
/-! PROOF. How each MES command ends on each side of the serial length 4, of the answer of the AES port and of the
marker, and what a decode undoes of an encode (spec rules R120 to R132), and the statements of
`43_codec_mes.md`. -/

namespace Sys2Proof.Machine

/-! ## The end of an MES decode (R126) -/

section FinishMes
variable (p : Bytes 16) (s : State)

/-- With the marker, the registers loaded are the fields that the plaintext carries, and the trailing constant that
decides on the warning is the one found in it. -/
theorem finishMes_loads_carried (h : p[0] = 0x01) : ∃ (rc' fc' cn' il' : Word) (x : BitVec 16),
    TrailerFound p x ∧ CarriesMes p rc' fc' cn' il' ∧
    finishMes p s = { s with
      rc := rc', fc := fc', cn := cn', il := il',
      status := if x = 0x0748 then 0 else 0x10,
      events := s.events ++ (if x = 0x0748 then [.ok] else [.trailer x, .ok]) } :=
  ⟨_, _, _, _, _, trailerOf_found p, unpackMes_carries p, finishMes_marked p s h⟩

/-- An MES decode that has come to the marker no longer fails for the serial length (R163). -/
theorem finishMes_status_ne_serialLen : (finishMes p s).status ≠ 2 := by
  by_cases h : p[0] = 0x01
  · rw [finishMes_marked p s h]
    show (if trailerOf p = 0x0748 then 0 else 0x10 : Word) ≠ 2
    split <;> decide
  · simp [finishMes_unmarked p s h]

/-- The end of an MES decode neither reads nor writes `SNLEN` (R124). -/
theorem finishMes_with_snlen (n : BitVec 8) :
    finishMes p { s with snlen := n } = { finishMes p s with snlen := n } := by
  by_cases h : p[0] = 0x01
  · rw [finishMes_marked _ _ h, finishMes_marked _ _ h]
  · rw [finishMes_unmarked _ _ h, finishMes_unmarked _ _ h]

end FinishMes

/-! ## The ends of PACKM, ENCM and DECM (R125, R128, R130) -/

section CommandEnds
variable {P : Config.Params} {s : State}

theorem raise_serialLen_eq (s : State) :
    raise .serialLen s = { s with status := 2, events := s.events ++ [.err .serialLen] } := raise_eq .serialLen s

theorem raise_keySetup_eq (s : State) :
    raise .keySetup s = { s with status := 3, events := s.events ++ [.err .keySetup] } := raise_eq .keySetup s

theorem packMesCmd_of_le (h : s.snlen.toNat ≤ 4) :
    packMesCmd s = { s with wb := mesPlaintext s, status := 0, events := s.events ++ [.ok] } :=
  (if_neg (Nat.not_lt.mpr h)).trans (complete_eq _)

theorem packMesCmd_of_gt (h : s.snlen.toNat > 4) : packMesCmd s = raise .serialLen s := if_pos h

theorem encodeMes_of_keyErr (h : s.snlen.toNat ≤ 4)
    (hk : P.aesEnc (diversifiedKey s) (mesPlaintext s) = .keyErr) :
    encodeMes P s = { s with status := 3, events := s.events ++ [.err .keySetup] } := by
  simp only [encodeMes_of_le h, hk, raise_keySetup_eq]

theorem encodeMes_of_block {c : Bytes 16} (h : s.snlen.toNat ≤ 4)
    (hc : P.aesEnc (diversifiedKey s) (mesPlaintext s) = .block c) :
    encodeMes P s = { s with wb := c, status := 0, events := s.events ++ [.ok] } := by
  simp only [encodeMes_of_le h, hc]
  exact complete_eq _

theorem decodeMes_of_keyErr (h : s.snlen.toNat ≤ 4) (hk : P.aesDec (diversifiedKey s) s.wb = .keyErr) :
    decodeMes P s = { s with status := 3, events := s.events ++ [.err .keySetup] } := by
  simp only [decodeMes_of_le h, hk, raise_keySetup_eq]

theorem decodeMes_of_block {p : Bytes 16} (h : s.snlen.toNat ≤ 4)
    (hp : P.aesDec (diversifiedKey s) s.wb = .block p) : decodeMes P s = finishMes p s := by
  simp only [decodeMes_of_le h, hp]

end CommandEnds

/-! ## The serial length (R124) -/

section SerialLength
variable {P : Config.Params} {s : State}

theorem encodeMes_status_ne_serialLen (h : s.snlen.toNat ≤ 4) : (encodeMes P s).status ≠ 2 := by
  cases hc : P.aesEnc (diversifiedKey s) (mesPlaintext s) with
  | keyErr => simp [encodeMes_of_keyErr h hc]
  | block c => simp [encodeMes_of_block h hc]

theorem decodeMes_status_ne_serialLen (h : s.snlen.toNat ≤ 4) : (decodeMes P s).status ≠ 2 := by
  cases hp : P.aesDec (diversifiedKey s) s.wb with
  | keyErr => simp [decodeMes_of_keyErr h hp]
  | block p =>
    rw [decodeMes_of_block h hp]
    exact finishMes_status_ne_serialLen p s

/-- The commands of R124 are three operations, `ENC` and `DEC` with the MES flag among them (R153, R154). -/
theorem command_of_usesSerial {i : Instr} (hi : i ∈ [.packm, .encm, .decm] ∨ (i ∈ [.enc, .dec] ∧ s.um = 1)) :
    command P i s = packMesCmd s ∨ command P i s = encodeMes P s ∨ command P i s = decodeMes P s := by
  cases i with
  | packm => exact .inl rfl
  | encm => exact .inr (.inl rfl)
  | decm => exact .inr (.inr rfl)
  | enc =>
    have hu : s.um ≠ 0 := by rw [(hi.resolve_left (by decide)).2]; decide
    exact .inr (.inl (encodeByFlag_mes hu))
  | dec =>
    have hu : s.um ≠ 0 := by rw [(hi.resolve_left (by decide)).2]; decide
    exact .inr (.inr (decodeByFlag_mes hu))
  | valid | scr n | dscr n | div | pack8 | unpk8 | enc8 | dec8 | unpkm => simp at hi

/-- Each of the three checks the serial length before anything else, the port included. -/
theorem command_of_snlen_gt {i : Instr} (hi : i ∈ [.packm, .encm, .decm] ∨ (i ∈ [.enc, .dec] ∧ s.um = 1))
    (h : s.snlen.toNat > 4) :
    command P i s = { s with status := 2, events := s.events ++ [.err .serialLen] } := by
  rw [← raise_serialLen_eq]
  obtain hc | hc | hc := command_of_usesSerial hi (P := P) <;> rw [hc]
  · exact packMesCmd_of_gt h
  · exact encodeMes_of_gt h
  · exact decodeMes_of_gt h

theorem command_status_ne_serialLen {i : Instr}
    (hi : i ∈ [.packm, .encm, .decm] ∨ (i ∈ [.enc, .dec] ∧ s.um = 1)) (h : s.snlen.toNat ≤ 4) :
    (command P i s).status ≠ 2 := by
  obtain hc | hc | hc := command_of_usesSerial hi (P := P) <;> rw [hc]
  · simp [packMesCmd_of_le h]
  · exact encodeMes_status_ne_serialLen h
  · exact decodeMes_status_ne_serialLen h

/-- On this chip, as the statements per command say it. -/
theorem exec_of_snlen_gt {i : Instr} (hi : i ∈ [.packm, .encm, .decm] ∨ (i ∈ [.enc, .dec] ∧ s.um = 1))
    (h : s.snlen.toNat > 4) :
    exec i s = .next { s with status := 2, events := s.events ++ [.err .serialLen] } :=
  (exec_eq_command i s).trans (congrArg Host.Outcome.next (command_of_snlen_gt hi h))

end SerialLength

/-! ## Encoding, then decoding (R132) -/

/-- `ENCM` completes only where the serial number fits and the port answers a block. -/
theorem encodeMes_completes {P : Config.Params} {s : State} (h : codeOf (encodeMes P s).status = 0) :
    s.snlen.toNat ≤ 4 ∧ ∃ c, P.aesEnc (diversifiedKey s) (mesPlaintext s) = .block c := by
  have hlen : s.snlen.toNat ≤ 4 := by
    by_contra hgt
    rw [encodeMes_of_gt (Nat.lt_of_not_le hgt), raise_status, codeOf_statusError] at h
    exact code_ne_zero _ h
  refine ⟨hlen, ?_⟩
  cases hc : P.aesEnc (diversifiedKey s) (mesPlaintext s) with
  | block c => exact ⟨c, rfl⟩
  | keyErr =>
    rw [encodeMes_of_keyErr hlen hc] at h
    exact absurd h (show codeOf 3 ≠ 0 by decide)

/-- `ENCM` keeps the key and the serial length, so that under `AES_INVERSE` the `DECM` after it comes to the plaintext
that `ENCM` built. -/
theorem decodeMes_encodeMes {P : Config.Params} {s : State} (hP : P.AesInverse)
    (henc : codeOf (encodeMes P s).status = 0)
    (hdec : codeOf (decodeMes P (encodeMes P s)).status ≠ ErrorKind.keySetup.code) :
    decodeMes P (encodeMes P s) = finishMes (mesPlaintext s) (encodeMes P s) := by
  obtain ⟨hlen, c, hc⟩ := encodeMes_completes henc
  have ht := encodeMes_of_block hlen hc
  have hkey : diversifiedKey (encodeMes P s) = diversifiedKey s := by rw [ht]; rfl
  have hwb : (encodeMes P s).wb = c := by rw [ht]
  have hlen' : (encodeMes P s).snlen.toNat ≤ 4 := by rwa [ht]
  cases hq : P.aesDec (diversifiedKey (encodeMes P s)) (encodeMes P s).wb with
  | keyErr =>
    rw [decodeMes_of_keyErr hlen' hq] at hdec
    exact absurd rfl hdec
  | block q =>
    rw [decodeMes_of_block hlen' hq]
    rw [hkey, hwb] at hq
    rw [hP _ _ _ _ hc hq]

/-! ## The statements -/

/-- Settles O42: the three operations that use the serial number check it first, and `UNPKM` is the end of a decode. -/
theorem mesCommandsRejectLongSerialNumbers : Obligations.MesCommandsRejectLongSerialNumbers :=
  ⟨fun _ _ _ hi => ⟨command_of_snlen_gt hi, command_status_ne_serialLen hi⟩, fun _ _ hi => exec_of_snlen_gt hi,
    fun s n => ⟨_, exec_eq_command .unpkm s,
      (exec_eq_command .unpkm _).trans (congrArg Host.Outcome.next (finishMes_with_snlen s.wb s n))⟩⟩

/-- Settles O43: the MES plaintext meets the table, and `PACKM` stores it. -/
theorem packmLeavesTheMesPlaintext : Obligations.PackmLeavesTheMesPlaintext :=
  ⟨decodeOfEncodedCommandIsTheCommand .packm rfl, fun s => ⟨fun h => ⟨mesPlaintext s,
    (exec_eq_command .packm s).trans (congrArg Host.Outcome.next (packMesCmd_of_le h)), mesPlaintext_layout h⟩,
    exec_of_snlen_gt (.inl (by decide))⟩⟩

/-- Settles O44: `UNPKM` is the end of a decode of `WB`, with and without the marker. -/
theorem unpkmLoadsTheFieldsOfAMarkedPlaintext : Obligations.UnpkmLoadsTheFieldsOfAMarkedPlaintext := by
  refine ⟨decodeOfEncodedCommandIsTheCommand .unpkm rfl, fun s => ⟨fun h => ?_, fun h => ?_⟩⟩
  · obtain ⟨rc', fc', cn', il', x, hx, hfields, hend⟩ := finishMes_loads_carried s.wb s h
    exact ⟨rc', fc', cn', il', x, hx, hfields,
      (exec_eq_command .unpkm s).trans (congrArg Host.Outcome.next hend)⟩
  · exact (exec_eq_command .unpkm s).trans (congrArg Host.Outcome.next (finishMes_unmarked s.wb s h))

/-- Settles O45: the port is asked with the diversified key and the MES plaintext, and `ENCM` ends by its answer. -/
theorem encmLeavesTheCiphertextOfThePort : Obligations.EncmLeavesTheCiphertextOfThePort := by
  refine ⟨decodeOfEncodedCommandIsTheCommand .encm rfl, fun s => ⟨fun h => ?_, exec_of_snlen_gt (.inl (by decide))⟩⟩
  refine ⟨diversifiedKey s, mesPlaintext s, _, diversifiedKey_diversifies s, mesPlaintext_layout h,
    exec_eq_command .encm s, ?_⟩
  cases hc : Config.chip.aesEnc (diversifiedKey s) (mesPlaintext s) with
  | block c => exact encodeMes_of_block h hc
  | keyErr => exact encodeMes_of_keyErr h hc

/-- Settles O46: the port is asked with the diversified key and `WB`, and a block it answers is decoded like a
plaintext in `WB`. -/
theorem decmLoadsTheFieldsOfTheDecryptedBlock : Obligations.DecmLoadsTheFieldsOfTheDecryptedBlock := by
  refine ⟨decodeOfEncodedCommandIsTheCommand .decm rfl, fun s => ⟨fun h => ?_, exec_of_snlen_gt (.inl (by decide))⟩⟩
  refine ⟨diversifiedKey s, _, diversifiedKey_diversifies s, exec_eq_command .decm s, ?_⟩
  cases hp : Config.chip.aesDec (diversifiedKey s) s.wb with
  | keyErr => exact decodeMes_of_keyErr h hp
  | block p =>
    rw [command, decodeMes_of_block h hp]
    exact ⟨finishMes_unmarked p s, finishMes_loads_carried p s⟩

/-- Settles O47: on both paths the decode comes to the plaintext that the encode built. -/
theorem mesRoundTripTruncatesTheFields : Obligations.MesRoundTripTruncatesTheFields := by
  refine ⟨fun P s hP henc hdec => ?_, fun s h => ?_⟩
  · have hend : command P .decm (command P .encm s) = finishMes (mesPlaintext s) (encodeMes P s) :=
      decodeMes_encodeMes hP henc hdec
    rw [hend]
    exact finishMes_mesPlaintext s _
  · refine ⟨_, _, exec_eq_command .packm s, exec_eq_command .unpkm _, ?_⟩
    have hend : command Config.chip .unpkm (packMesCmd s) = finishMes (mesPlaintext s) (packMesCmd s) := by
      rw [command, unpackMesCmd, packMesCmd_of_le h]
    exact hend ▸ finishMes_mesPlaintext s _

end Sys2Proof.Machine
end

section
/-! PROOF. The two outcomes of `VALID` by the ranges of the fields, and what `ENC` and `DEC` take over from the command
that `UM` selects (spec rules R150 to R154), and the statements of `44_validate_dispatch.md`. -/

namespace Sys2Proof.Machine

/-! ## VALID (R150, R151) -/

theorem raiseWith_eq (e : ErrorKind) (vf : Violations) (s : State) : raiseWith e vf s =
    { s with status := statusError e vf, events := s.events ++ (vf.events ++ [.err e]) } := rfl

/-- The events of a failed validation, by the bounds as numbers (R151). -/
theorem isValid_events (region facility card issue : Word) : (isValid region facility card issue).events =
    (if region.toNat > 15 then [.field .rc] else []) ++ (if facility.toNat > 65535 then [.field .fc] else []) ++
    (if card.toNat > 16777215 then [.field .cn] else []) ++ (if issue.toNat > 15 then [.field .il] else []) := by
  simp [Violations.events, isValid, BitVec.lt_def]

section Validate
variable {s : State}

theorem validate_of_inRange (h : InRange s) :
    validate s = { s with status := 0, events := s.events ++ [.ok] } :=
  (validate_of_ok ((isValid_ok_iff_inRange s).mpr h)).trans (complete_eq s)

theorem validate_of_not_inRange (h : ¬ InRange s) :
    validate s = raiseWith .range (isValid s.rc s.fc s.cn s.il) s :=
  validate_of_not_ok (mt (isValid_ok_iff_inRange s).mp h)

/-- `CODE` alone tells whether the fields are in range. -/
theorem validate_code_eq_zero_iff_inRange : codeOf (validate s).status = 0 ↔ InRange s := by
  by_cases h : InRange s
  · have hok : (validate s).status = 0 := by rw [validate_of_inRange h]
    exact iff_of_true (congrArg codeOf hok) h
  · have herr : codeOf (validate s).status = ErrorKind.range.code := by
      rw [validate_of_not_inRange h, raiseWith_status, codeOf_statusError]
    exact iff_of_false (fun h0 => code_ne_zero .range (herr.symm.trans h0)) h

end Validate

/-- Truncation leaves the fields as they are only where they are in range. -/
theorem TruncatesFields.eq_iff_inRange {s t : State} (h : TruncatesFields s t) :
    (t.rc = s.rc ∧ t.fc = s.fc ∧ t.cn = s.cn ∧ t.il = s.il) ↔ InRange s := by
  refine ⟨?_, h.eq_of_inRange⟩
  obtain ⟨hrc, hfc, hcn, hil⟩ := h
  rintro ⟨rc, fc, cn, il⟩
  exact ⟨toNat_le_of_mask_eq_self (hrc.symm.trans rc), toNat_le_of_mask_eq_self (hfc.symm.trans fc),
    toNat_le_of_mask_eq_self (hcn.symm.trans cn), toNat_le_of_mask_eq_self (hil.symm.trans il)⟩

/-! ## The commands that UM selects (R153, R154) -/

/-- `ENCM` completes or raises `ERR_SERIAL_LEN` or `ERR_KEY_SETUP` (R128). -/
theorem encodeMes_status (P : Config.Params) (s : State) :
    (encodeMes P s).status = 0 ∨ (encodeMes P s).status = 2 ∨ (encodeMes P s).status = 3 := by
  by_cases h : s.snlen.toNat ≤ 4
  · cases hc : P.aesEnc (diversifiedKey s) (mesPlaintext s) with
    | block c => exact .inl (by rw [encodeMes_of_block h hc])
    | keyErr => exact .inr (.inr (by rw [encodeMes_of_keyErr h hc]))
  · exact .inr (.inl (by rw [encodeMes_of_gt (Nat.lt_of_not_le h), raise_serialLen_eq]))

/-- `DECM` keeps `WB`, the ciphertext (R130). -/
theorem decodeMes_wb (P : Config.Params) (s : State) : (decodeMes P s).wb = s.wb :=
  Vector.ext fun j hj => byte_eq_of_zeroExtended (readReg_decodeMes (r := .wb ⟨j, hj⟩) (by simp) P s rfl)

theorem command_um (P : Config.Params) (i : Instr) (s : State) : (command P i s).um = s.um :=
  (command_keeps P i s).1

/-- A command on this chip, when its next state has been rewritten. -/
theorem exec_eq_of_command_eq {i : Instr} {s t : State} (h : command Config.chip i s = t) : exec i s = .next t :=
  (exec_eq_command i s).trans (congrArg Host.Outcome.next h)

/-- A flag that is 1 selects the MES command. -/
theorem um_ne_zero_of_eq_one {s : State} (h : s.um = 1) : s.um ≠ 0 := by rw [h]; decide

/-! ## The statements -/

/-- Settles O49: `VALID` completes with the fields in range, and otherwise raises `ERR_RANGE` with what the judgement
found. -/
theorem validReportsEveryViolatedField : Obligations.ValidReportsEveryViolatedField := by
  refine ⟨decodeOfEncodedCommandIsTheCommand .valid rfl, fun s => ⟨fun h => ?_, fun h => ?_⟩⟩
  · exact exec_eq_of_command_eq (validate_of_inRange h)
  · rw [exec_eq_command, command, validate_of_not_inRange h, raiseWith_eq, statusError_isValid, isValid_events]

/-- Settles O50: `VALID` reports `OK` for fields in range, and these are the fields that truncation leaves alone. -/
theorem validHoldsExactlyWhenPackingLosesNothing : Obligations.ValidHoldsExactlyWhenPackingLosesNothing := fun s =>
  ⟨_, _, _, exec_eq_command .valid s, exec_eq_command .pack8 s, exec_eq_command .unpk8 _,
    validate_code_eq_zero_iff_inRange.trans (unpackLow_packLow s).eq_iff_inRange.symm⟩

/-- Settles O51: `ENC` is the selected command, `ENC8` always completes, and `ENCM` has two errors. -/
theorem encIsTheCommandTheFlagSelects : Obligations.EncIsTheCommandTheFlagSelects :=
  ⟨decodeOfEncodedCommandIsTheCommand .enc rfl, fun s =>
    ⟨fun h => ⟨_, exec_eq_of_command_eq (encodeByFlag_low h), exec_eq_command .enc8 s,
      congrArg State.status (encodeLow_eq _ s)⟩,
      fun h => ⟨_, exec_eq_of_command_eq (encodeByFlag_mes (um_ne_zero_of_eq_one h)), exec_eq_command .encm s,
        encodeMes_status _ s⟩⟩⟩

/-- Settles O52: `DEC` is the selected command, no command writes `UM`, and `DECM` keeps `WB`. -/
theorem decIsTheCommandTheFlagSelects : Obligations.DecIsTheCommandTheFlagSelects :=
  ⟨decodeOfEncodedCommandIsTheCommand .dec rfl, fun s =>
    ⟨fun h => ⟨_, exec_eq_of_command_eq (decodeByFlag_low h), exec_eq_command .dec8 s, command_um _ .dec8 s⟩,
      fun h => ⟨_, exec_eq_of_command_eq (decodeByFlag_mes (um_ne_zero_of_eq_one h)), exec_eq_command .decm s,
        command_um _ .decm s, decodeMes_wb _ s⟩⟩⟩

end Sys2Proof.Machine
end

section
/-! PROOF. What a command reports in `STATUS` and in the events it appends, said once for the four ways it ends (spec
rules R160, R161 and R175), and the statements of `60_exceptions.md`. -/

namespace Sys2Proof.Machine

/-! ## The two outcomes of a command (R160, R175) -/

/-- From `s`, `t` reports success: `CODE` is 0, and `E_OK` has been appended after at most trailer warnings. -/
structure ReportsOk (s t : State) : Prop where
  code : codeOf t.status = 0
  events : ∃ es, t.events = s.events ++ (es ++ [.ok]) ∧ ∀ e ∈ es, ∃ x, e = .trailer x

/-- From `s`, `t` reports the error `k`: `CODE` is its code, `E_ERR` has been appended after at most `E_FIELD`
events, and nothing but `STATUS` and the event output has changed. -/
structure ReportsError (k : ErrorKind) (s t : State) : Prop where
  code : codeOf t.status = k.code
  events : ∃ es, t.events = s.events ++ (es ++ [.err k]) ∧ ∀ e ∈ es, ∃ f, e = .field f
  keeps : t = { s with status := t.status, events := t.events }

/-- Validation announces nothing but fields (R151). -/
theorem Violations.events_are_fields (vf : Violations) : ∀ e ∈ vf.events, ∃ f, e = .field f := by
  intro e he
  simp only [Violations.events, List.mem_append, List.mem_ite_nil_right, List.mem_singleton] at he
  obtain ((⟨-, rfl⟩ | ⟨-, rfl⟩) | ⟨-, rfl⟩) | ⟨-, rfl⟩ := he <;> exact ⟨_, rfl⟩

theorem raiseWith_reportsError (k : ErrorKind) (vf : Violations) (s : State) :
    ReportsError k s (raiseWith k vf s) where
  code := codeOf_statusError k vf
  events := ⟨vf.events, rfl, vf.events_are_fields⟩
  keeps := rfl

theorem raise_reportsError (k : ErrorKind) (s : State) : ReportsError k s (raise k s) :=
  raiseWith_reportsError k .none s

theorem KeepsOperands.complete_reportsOk {s t : State} (h : KeepsOperands s t) : ReportsOk s (complete t) where
  code := by rw [complete_status, statusOk_eq]; rfl
  events := ⟨[], by rw [complete_events, h.events, List.nil_append], by simp⟩

theorem KeepsOperands.completeWarn_reportsOk {s t : State} (h : KeepsOperands s t) (x : BitVec 16) :
    ReportsOk s (completeWarn x t) where
  code := by rw [completeWarn_status, statusWarn_eq]; rfl
  events := ⟨[.trailer x], by rw [completeWarn_events, h.events, List.singleton_append], by simp⟩

/-- Each of the four ways a command ends is one of the two outcomes. -/
theorem Ends.reports {i : Instr} {s t : State} (h : Ends i s t) : ReportsOk s t ∨ ∃ k, ReportsError k s t := by
  cases h with
  | completes u hu => exact .inl hu.complete_reportsOk
  | warns u x hu => exact .inl (hu.completeWarn_reportsOk x)
  | failsRange => exact .inr ⟨_, raiseWith_reportsError _ _ s⟩
  | raises k => exact .inr ⟨k, raise_reportsError k s⟩

/-! ## STATUS and the last event (R161, R175) -/

/-- The agreement is about `STATUS` and the event output alone. -/
theorem StatusAgreesWithEvents.congr {s t : State} (hs : StatusAgreesWithEvents s) (hstatus : t.status = s.status)
    (hevents : t.events = s.events) : StatusAgreesWithEvents t := by
  simpa only [StatusAgreesWithEvents, hstatus, hevents] using hs

theorem ReportsOk.statusAgrees {s t : State} (h : ReportsOk s t) : StatusAgreesWithEvents t := by
  obtain ⟨es, hes, -⟩ := h.events
  simpa [StatusAgreesWithEvents, hes, ← List.append_assoc] using h.code

theorem ReportsError.statusAgrees {k : ErrorKind} {s t : State} (h : ReportsError k s t) :
    StatusAgreesWithEvents t := by
  obtain ⟨es, hes, -⟩ := h.events
  simpa [StatusAgreesWithEvents, hes, ← List.append_assoc] using h.code

/-- However a command ends, the event it appends last is the one its `STATUS` reports. -/
theorem Ends.statusAgrees {i : Instr} {s t : State} (h : Ends i s t) : StatusAgreesWithEvents t := by
  obtain hok | ⟨k, herr⟩ := h.reports
  · exact hok.statusAgrees
  · exact herr.statusAgrees

/-- An input that runs no command leaves `STATUS` and the event output, or resets both. -/
theorem Takes.statusAgrees {x : HostInput} {s t : State} (h : Takes x s t) (hs : StatusAgreesWithEvents s) :
    StatusAgreesWithEvents t := by
  cases h with
  | answers r => exact hs.congr rfl rfl
  | stores u r a v hw =>
    obtain ⟨-, hstatus, hevents, -⟩ := writeReg_keeps hw
    exact hs.congr hstatus hevents
  | runs w i => exact (command_ends Config.chip i s).statusAgrees.congr rfl rfl
  | rejects => exact (raise_reportsError .illegalCmd s).statusAgrees.congr rfl rfl
  | resets => exact statusAgreesWithEventsAfterReset.congr rfl rfl

/-! ## The rows of the outcome table (R161) -/

/-- The codes of the errors other than `ERR_RANGE` (R162). -/
theorem statusError_none_bounds {k : ErrorKind} (hk : k ≠ .range) :
    2 ≤ (statusError k .none).toNat ∧ (statusError k .none).toNat ≤ 7 := by
  cases k with
  | range => exact absurd rfl hk
  | serialLen | keySetup | marker | divLen | illegalCmd | operand => decide

/-- The MES flag has two values (R13). -/
theorem eq_one_of_ne_zero {um : BitVec 1} (h : um ≠ 0) : um = 1 := by
  revert um; decide

/-- The rows of `VALID`: success, and the error with its `VF` bits. -/
theorem validate_status (s : State) : (validate s).status = 0 ∨
    (¬ InRange s ∧ (validate s).status = 1 ||| (if s.rc.toNat > 15 then 0x100 else 0) |||
      (if s.fc.toNat > 65535 then 0x200 else 0) ||| (if s.cn.toNat > 16777215 then 0x400 else 0) |||
      (if s.il.toNat > 15 then 0x800 else 0)) := by
  by_cases h : InRange s
  · exact .inl (by rw [validate_of_inRange h])
  · exact .inr ⟨h, by rw [validate_of_not_inRange h, raiseWith_status, statusError_isValid]⟩

/-- The rows of the other commands: success, the warning of an MES decode, and an error without `VF` bits. -/
theorem Ends.status_of_ne_valid {i : Instr} {s t : State} (h : Ends i s t) (hi : i ≠ .valid) :
    t.status = 0 ∨ (t.status = 0x10 ∧ decodesMes s.um i) ∨ (2 ≤ t.status.toNat ∧ t.status.toNat ≤ 7) := by
  cases h with
  | completes => exact .inl statusOk_eq
  | warns u x hu hmes => exact .inr (.inl ⟨statusWarn_eq, hmes⟩)
  | failsRange hvalid => exact absurd hvalid hi
  | raises k hk => exact .inr (.inr (statusError_none_bounds hk))

/-! ## The statements -/

/-- Settles O19: a step waits, or takes an input that keeps or restores the agreement. -/
theorem everyStepKeepsStatusInAgreementWithEvents : Obligations.EveryStepKeepsStatusInAgreementWithEvents := by
  intro s t hs ht
  by_cases hne : t = s
  · exact hne ▸ hs
  · obtain ⟨x, rest, -, hx⟩ := takes_of_step ht hne
    exact hx.statusAgrees (hs.congr rfl rfl)

/-- Settles O15: a command has one of the two outcomes, and `CODE` tells which. -/
theorem errorsChangeStatusAndEventsOnly : Obligations.ErrorsChangeStatusAndEventsOnly := by
  intro i s
  obtain hok | ⟨k, herr⟩ := (command_ends Config.chip i s).reports
  · obtain ⟨es, hes, htrailers⟩ := hok.events
    exact ⟨_, _, exec_eq_command i s, hes, fun _ => ⟨es, rfl, htrailers⟩, fun h => absurd hok.code h⟩
  · obtain ⟨es, hes, hfields⟩ := herr.events
    exact ⟨_, _, exec_eq_command i s, hes, fun h => absurd (herr.code.symm.trans h) (code_ne_zero k),
      fun _ => ⟨herr.keeps, es, k, rfl, herr.code, hfields⟩⟩

/-- Settles O16: the two rows of `VALID`, and the three of every other command. -/
theorem statusAfterACommandIsARowOfTheOutcomeTable : Obligations.StatusAfterACommandIsARowOfTheOutcomeTable := by
  intro i s
  refine ⟨_, exec_eq_command i s, ?_⟩
  by_cases hi : i = .valid
  · subst hi
    obtain h | ⟨hrange, h⟩ := validate_status s
    · exact .inl h
    · exact .inr (.inr (.inl ⟨rfl, hrange, h⟩))
  · obtain h | ⟨h, hmes⟩ | h := (command_ends Config.chip i s).status_of_ne_valid hi
    · exact .inl h
    · exact .inr (.inl ⟨h, hmes.imp_right (Or.imp_right (And.imp_right eq_one_of_ne_zero))⟩)
    · exact .inr (.inr (.inr ⟨hi, h⟩))

end Sys2Proof.Machine
end

section
/-! PROOF. What the reset input leaves, and how the wire block that `DEC8` overwrites comes back (spec rules R190 and
R196): the statements of `70_reset_and_hazards.md`. -/

namespace Sys2Proof.Machine

/-- `DEC8` leaves in `WB` what `DSCR 8` would (R106). -/
theorem decodeLow_wb_eq_subst (P : Config.Params) (s : State) : (decodeLow P s).wb = subst P.inv s.wb 8 :=
  (congrArg State.wb (decodeLow_eq P s rfl)).trans (storeLow8_subst_low8_wb P.inv s)

/-- Forward substitution of the first eight bytes undoes what `DEC8` did to `WB` (R196). -/
theorem scr_decodeLow_wb (P : Config.Params) (s : State) : (scr P 8 (decodeLow P s)).wb = s.wb := by
  have hinv : Function.LeftInverse P.fwd P.inv := P.sbox.apply_symm_apply
  rw [scr, substituteWb_wb (by decide), decodeLow_wb_eq_subst, subst_subst hinv]

/-- No register after the reset input depends on what it held (R190). -/
theorem takeReset_sameRegisters (s : State) : SameRegisters (takeReset s) State.reset :=
  ⟨rfl, rfl, rfl, rfl, rfl, rfl, rfl, rfl, rfl, rfl, rfl⟩

/-- Settles O32: `DEC8` is the inverse substitution on `WB`, which `SCR 8` undoes. -/
theorem scrEightRecoversTheWireBlockAfterDec8 : Obligations.ScrEightRecoversTheWireBlockAfterDec8 := fun s =>
  ⟨_, _, exec_eq_command .dec8 s, exec_eq_command (.scr 8) _, scr_decodeLow_wb Config.chip s⟩

/-- Settles O14: the step is the reset itself, taken off the queue. -/
theorem resetInputPutsEveryRegisterToItsResetValue : Obligations.ResetInputPutsEveryRegisterToItsResetValue :=
  fun s rest h =>
    ⟨takeReset { s with inputs := rest }, step_of_inputs h, takeReset_sameRegisters _, takeReset_events _⟩

end Sys2Proof.Machine
end

section
/-! PROOF. The known vector of the MES path under the named premise `AES_FIPS197` (section 1.4 of
`95_test_vectors.md`): the transient key, the plaintext and the two evaluations of AES-128 between plaintext and
ciphertext, and the statement of that file. -/

namespace Sys2Proof.Machine

/-! ## The values of the vector -/

/-- The site key. -/
def knownSiteKey : Bytes 16 := #v[0x13, 0x37, 0xD0, 0x0D, 0x13, 0x37, 0xD0, 0x0D,
  0x13, 0x37, 0xD0, 0x0D, 0x13, 0x37, 0xD0, 0x0D]

/-- The state in which the vector is encoded. -/
def knownStart : State := { State.reset with
  rc := 12, fc := 0x1337, cn := 0xF00D, il := 1, snlen := 4,
  sn := #v[0x3C, 0x54, 0x51, 0xE3, 0, 0, 0, 0, 0, 0], sk := knownSiteKey }

/-- The transient key, which section 1.4 works out by R90. -/
def knownKey : Bytes 16 := #v[0x2F, 0x63, 0x81, 0xEE, 0x13, 0x37, 0xD0, 0x0D,
  0x13, 0x37, 0xD0, 0x0D, 0x13, 0x37, 0xD0, 0x0D]

/-- The plaintext, which section 1.4 works out by R122. -/
def knownPlaintext : Bytes 16 := #v[0x01, 0x00, 0xF0, 0x0D, 0x13, 0x37, 0xC1, 0x00,
  0x00, 0x00, 0x3C, 0x54, 0x51, 0xE3, 0x07, 0x48]

/-- The ciphertext. -/
def knownCipher : Bytes 16 := #v[0x4F, 0x36, 0xB7, 0x4E, 0xFF, 0xCD, 0x76, 0xEF,
  0xED, 0xA5, 0x74, 0x58, 0xC8, 0xB4, 0xE3, 0x04]

/-- The state in which the vector is decoded: the ciphertext in `WB`, and other fields loaded. -/
def knownEncoded : State := { knownStart with rc := 7, fc := 7, cn := 7, il := 7, wb := knownCipher }

/-! ## What the port is asked with (R127, R128) -/

theorem diversifiedKey_knownStart : diversifiedKey knownStart = knownKey := by decide

theorem mesPlaintext_knownStart : mesPlaintext knownStart = knownPlaintext := by decide

/-- The fields take no part in the transient key (R94). -/
theorem diversifiedKey_knownEncoded : diversifiedKey knownEncoded = knownKey :=
  (diversifiedKey_congr rfl rfl).trans diversifiedKey_knownStart

/-! ## What AES-128 answers -/

theorem aes128Enc_knownPlaintext : Config.aes128Enc knownKey knownPlaintext = knownCipher := by decide +kernel

theorem aes128Dec_knownCipher : Config.aes128Dec knownKey knownCipher = knownPlaintext := by decide +kernel

/-! ## What the plaintext carries (R123) -/

theorem unpackMes_knownPlaintext : unpackMes knownPlaintext = ⟨12, 0x1337, 0xF00D, 1⟩ := by decide

theorem trailerOf_knownPlaintext : trailerOf knownPlaintext = 0x0748 := by decide

/-! ## The two commands under the premise -/

section Premise
variable {P : Config.Params} (hP : P.AesFips197)
include hP

theorem encodeMes_knownStart :
    encodeMes P knownStart = { knownStart with wb := knownCipher, events := [.ok] } := by
  have hc : P.aesEnc (diversifiedKey knownStart) (mesPlaintext knownStart) = .block knownCipher := by
    rw [diversifiedKey_knownStart, mesPlaintext_knownStart, (hP _ _).1, aes128Enc_knownPlaintext]
  exact encodeMes_of_block (by decide) hc

/-- The plaintext has the marker and the regular trailing constant, so its fields are loaded without a warning
(R130). -/
theorem decodeMes_knownEncoded :
    decodeMes P knownEncoded = { knownStart with wb := knownCipher, events := [.ok] } := by
  have hp : P.aesDec (diversifiedKey knownEncoded) knownEncoded.wb = .block knownPlaintext := by
    rw [diversifiedKey_knownEncoded, (hP _ _).2]
    exact congrArg Config.PortAnswer.block aes128Dec_knownCipher
  rw [decodeMes_of_block (by decide) hp, finishMes_marked knownPlaintext knownEncoded rfl,
    unpackMes_knownPlaintext, trailerOf_knownPlaintext]
  rfl

end Premise

/-! ## The statement -/

/-- Settles O48: `ENCM` comes to the ciphertext by the port's encryption, `DECM` back to the plaintext by its
decryption. -/
theorem knownVectorUnderFips197 : Obligations.KnownVectorUnderFips197 := fun _ hP =>
  ⟨encodeMes_knownStart hP, decodeMes_knownEncoded hP⟩

end Sys2Proof.Machine
end
